-- ==== Sys2Proof/Word.lean ====
section
/-! DEFINITION. The words the block moves: registers and operands (32 bits), PCM words (16 bits), bytes of the byte view,
command words (68 bits). R20, R26, R42, R55. -/

namespace Sys2Proof

/-- A register, an operand or response data: 32 bits (R20, R55, R63). -/
abbrev Word := BitVec 32

/-- A PCM word of the frame buffer and of the sink stream: 16 bits (R26, R45). -/
abbrev Sample := BitVec 16

/-- One byte of the byte view of a frame (R42). -/
abbrev Byte := BitVec 8

/-- A command word: `op` in 67:64, `A` in 63:32, `B` in 31:0 (R55). -/
abbrev CmdWord := BitVec 68

end Sys2Proof
end

