-- ==== Sys2Proof/Config.lean ====
section
/-! DEFINITION. What this hardware fixes (R8, R9, R17, R37) and the values the spec leaves without a definition. -/

namespace Sys2Proof.Config

/-- `N`: stereo sample pairs per frame (R8). -/
abbrev N : Nat := 441

/-- `FS`: the sample rate in Hz (R8). -/
abbrev FS : Nat := 44100

/-- `W`: bits per PCM word (R8). -/
abbrev W : Nat := 16

/-- `SCALE`: the integer scale of the signed unit value (R8). -/
abbrev SCALE : Nat := 0x3FFF

/-- `TIMEOUT_MS`: the bound on the wait of one `EMIT` in milliseconds (R8). -/
abbrev TIMEOUT_MS : Nat := 100

/-- `FRAME_WORDS = 2*N`: 16-bit words per frame (R8). -/
abbrev FRAME_WORDS : Nat := 882

/-- `FRAME_BYTES = 2*FRAME_WORDS`: bytes per frame (R8). -/
abbrev FRAME_BYTES : Nat := 1764

/-- `BIAS`: the unsigned mid-point bias of a PCM word (R8, R91). -/
def BIAS : Int := 0x8000

/-- `TIMEOUT_TICKS`: pulses of `fs_ce` that bound one burst (R9, R96). -/
abbrev TIMEOUT_TICKS : Nat := 4410

/-! The binary32 constants of the datapath (R17). -/

def PI_F : Word := 0x40490FDB#32
def HALF_PI_F : Word := 0x3FC90FDB#32
def THREE_HALF_PI_F : Word := 0x4096CBE4#32
def TWO_PI_F : Word := 0x40C90FDB#32
def ONE_F : Word := 0x3F800000#32
def SIX_F : Word := 0x40C00000#32
def TWENTY_F : Word := 0x41A00000#32
def FORTYTWO_F : Word := 0x42280000#32
def SCALE_F : Word := 0x467FFC00#32
def FS_F : Word := 0x472C4400#32
def N_F : Word := 0x43DC8000#32

/-! Free values (log 7): what `advance`, `sin7` and `pack` give outside the operands their rules define them for.
No run reaches one: R21 and R22 keep every phase legal and every step finite. -/

/-- `advance(P, S)` where P is no legal phase or S is not finite: R73 defines it for no such operands. -/
opaque unspecifiedPhase : Word → Word → Word

/-- `sin7(p)` where p is no legal phase: R74 defines it for no such operand. -/
opaque unspecifiedSine : Word → Word

/-- `pack(y)` where y, or y scaled, is not finite: R91 and R92 define it for no such operand. -/
opaque unspecifiedSample : Word → Sample

end Sys2Proof.Config
end

