-- ==== Sys2Proof/Syntax.lean ====
section
/-! DEFINITION. The eight commands, one constructor per row of spec/opcode_table.json (R57). An operand field that R57
marks unused is no argument (R59: any value is accepted and has no effect). -/

namespace Sys2Proof

/-- A command of the block (R57). -/
inductive Instr where
  /-- `NOP` (R110). -/
  | nop
  /-- `SETP freq, amp`: two binary32 patterns (R71). -/
  | setp (freq amp : Word)
  /-- `STEP` (R72). -/
  | step
  /-- `PROD` (R93). -/
  | prod
  /-- `EMIT` (R94). -/
  | emit
  /-- `RDSR idx`: an unsigned 32-bit register index (R111). -/
  | rdsr (idx : Word)
  /-- `RDFB idx`: an unsigned 32-bit frame word index (R112). -/
  | rdfb (idx : Word)
  /-- `CLRF mask`: a 32-bit flag mask (R113). -/
  | clrf (mask : Word)
  deriving DecidableEq, Repr

/-- The pseudo-instruction `FRAME` expands to `PROD` then `EMIT` (R67, R98). -/
def framePseudo : List Instr := [.prod, .emit]

end Sys2Proof
end

