-- ==== Sys2Proof/WellFormed.lean ====
section
/-! DEFINITION. Which commands R61 calls legal. An ill-formed command decodes and executes too: it is answered `ILLEGAL`
(R61, R123). -/

namespace Sys2Proof

/-- No operand of the command is out of its range: `RDSR` takes an index below 4, `RDFB` one below 882, both compared on all
32 bits (R61); every other command is legal for every operand (R62). -/
def Instr.wellFormed : Instr → Bool
  | .nop => true
  | .setp _ _ => true
  | .step => true
  | .prod => true
  | .emit => true
  | .rdsr idx => decide (idx.toNat < 4)
  | .rdfb idx => decide (idx.toNat < Config.FRAME_WORDS)
  | .clrf _ => true

end Sys2Proof
end

