-- ==== Sys2Proof/Decode.lean ====
section
/-! DEFINITION. Decoding a command word, total on all 2^68 words and rejecting a reserved opcode by name, and encoding.
R55, R57 to R60. -/

namespace Sys2Proof

/-- Why the decoder rejects a word. -/
inductive DecodeError where
  /-- Opcodes 0x8 to 0xF are reserved (R60). -/
  | reservedOpcode (op : BitVec 4)
  deriving DecidableEq, Repr

/-- `cmd[67:64]` (R55). -/
def CmdWord.op (c : CmdWord) : BitVec 4 := c.extractLsb' 64 4

/-- `cmd[63:32]` (R55). -/
def CmdWord.a (c : CmdWord) : Word := c.extractLsb' 32 32

/-- `cmd[31:0]` (R55). -/
def CmdWord.b (c : CmdWord) : Word := c.extractLsb' 0 32

/-- The command word `{op, A, B}` (R55, R10). -/
def CmdWord.mk (op : BitVec 4) (a b : Word) : CmdWord := op ++ a ++ b

/-- The decoder looks at `op` only (R57); operands are taken as they stand (R58), unused ones ignored (R59). -/
def decode (c : CmdWord) : Except DecodeError Instr :=
  match c.op.toNat with
  | 0 => .ok .nop
  | 1 => .ok (.setp c.a c.b)
  | 2 => .ok .step
  | 3 => .ok .prod
  | 4 => .ok .emit
  | 5 => .ok (.rdsr c.a)
  | 6 => .ok (.rdfb c.a)
  | 7 => .ok (.clrf c.a)
  | _ => .error (.reservedOpcode c.op)

/-- The opcode of a command (R57). -/
def Instr.opcode : Instr → BitVec 4
  | .nop => 0x0#4
  | .setp _ _ => 0x1#4
  | .step => 0x2#4
  | .prod => 0x3#4
  | .emit => 0x4#4
  | .rdsr _ => 0x5#4
  | .rdfb _ => 0x6#4
  | .clrf _ => 0x7#4

/-- The word of a command, unused operands encoded as zero (R55, R57, R66). -/
def encode (i : Instr) : CmdWord :=
  match i with
  | .nop => CmdWord.mk i.opcode 0#32 0#32
  | .setp freq amp => CmdWord.mk i.opcode freq amp
  | .step => CmdWord.mk i.opcode 0#32 0#32
  | .prod => CmdWord.mk i.opcode 0#32 0#32
  | .emit => CmdWord.mk i.opcode 0#32 0#32
  | .rdsr idx => CmdWord.mk i.opcode idx 0#32
  | .rdfb idx => CmdWord.mk i.opcode idx 0#32
  | .clrf mask => CmdWord.mk i.opcode mask 0#32

/-- The command word that a table row's bits `w` stand for: bit n of the table is bit n of the word. The port has 68 bits, so
a number that needs more is no command word (log 14). -/
def tableWord (nbits w : Nat) : Option CmdWord :=
  let bits := w % 2 ^ nbits
  if bits < 2 ^ 68 then some (BitVec.ofNat 68 bits) else none

/-- The command the decoder reads from a table row's bits; none where it rejects. -/
def decodeTableWord (nbits w : Nat) : Option Instr :=
  match tableWord nbits w with
  | none => none
  | some c =>
    match decode c with
    | .ok i => some i
    | .error _ => none

end Sys2Proof
end

