-- ==== Sys2Proof/Machine/Float.lean ====
section
/-! DEFINITION. The binary32 primitives (R12 to R16). A finite pattern's value is an integer number of units of 2^-149; every
operation computes its exact result as a quotient of natural numbers in those units and rounds it once. -/

namespace Sys2Proof.Machine

/-- The exponent field `u[30:23]` (R12). -/
def expField (u : Word) : Nat := (u.extractLsb' 23 8).toNat

/-- The fraction field `u[22:0]` (R12). -/
def fracField (u : Word) : Nat := (u.extractLsb' 0 23).toNat

/-- `isFinite(u)` is `e != 255` (R12). -/
def isFinite (u : Word) : Bool := expField u != 255

/-- The magnitude of a finite pattern in units of 2^-149 (R12). -/
def mag (u : Word) : Nat :=
  if expField u = 0 then fracField u else (2 ^ 23 + fracField u) * 2 ^ (expField u - 1)

/-- The value of a finite pattern in units of 2^-149 (R12). -/
def units (u : Word) : Int := if u.msb then -(mag u : Int) else (mag u : Int)

/-- The integer nearest to n/d, a tie going to the even one (R13). -/
def roundDiv (n d : Nat) : Nat :=
  let q := n / d
  let r := n % d
  if 2 * r < d then q
  else if d < 2 * r then q + 1
  else if q % 2 = 0 then q
  else q + 1

/-- The pattern, less its sign, of the binary32 value nearest to n/d units, ties to even, infinity on overflow (R13). The grid
is one unit below 2^24 units and 2^shift units in the binade of each larger value; the pattern of `r * 2^shift` units,
`2^23 <= r < 2^24`, is `shift * 2^23 + r`. -/
def rndMag (n d : Nat) : Nat :=
  let shift := Nat.log2 (n / d) - 23
  let p := shift * 2 ^ 23 + roundDiv n (d * 2 ^ shift)
  if 0x7F800000 ≤ p then 0x7F800000 else p

/-- `rnd32` of a real of magnitude n/d units (R13). `neg` is its sign, and the sign of a zero result (log 9). -/
def rnd32 (neg : Bool) (n d : Nat) : Word :=
  (if neg then 0x80000000#32 else 0x00000000#32) ||| BitVec.ofNat 32 (rndMag n d)

/-- `fadd` of finite operands; an exact zero is `-0` only if both operands are `-0` (R14). -/
def fadd (a b : Word) : Word :=
  let x := units a + units b
  if x = 0 then (if a = 0x80000000#32 ∧ b = 0x80000000#32 then 0x80000000#32 else 0x00000000#32)
  else rnd32 (decide (x < 0)) x.natAbs 1

/-- `fsub(a, b) = fadd(a, b with its sign bit inverted)` (R14). -/
def fsub (a b : Word) : Word := fadd a (b ^^^ 0x80000000#32)

/-- `fmul` of finite operands (R14). -/
def fmul (a b : Word) : Word := rnd32 (a.msb ^^ b.msb) (mag a * mag b) (2 ^ 149)

/-- `fdiv` of finite operands, the divisor not zero (R14). -/
def fdiv (a b : Word) : Word := rnd32 (a.msb ^^ b.msb) (mag a * 2 ^ 149) (mag b)

/-- The pattern, if it is finite. -/
def finite? (u : Word) : Option Word := if isFinite u then some u else none

/-- `fmul` of any operands: none stands for a NaN or an infinity, which one is never observable (R15, log 8). -/
def fmulAny (a b : Word) : Option Word :=
  if isFinite a && isFinite b then finite? (fmul a b) else none

/-- `fdiv` of any dividend: none stands for a NaN or an infinity, which one is never observable (R15, log 8). -/
def fdivAny (a b : Word) : Option Word :=
  if isFinite a && isFinite b then finite? (fdiv a b) else none

/-- `flt(a, b)`: compares values, so `+0` and `-0` are equal (R16). -/
def flt (a b : Word) : Bool := decide (units a < units b)

/-- `fge(a, b)`: compares values, so `+0` and `-0` are equal (R16). -/
def fge (a b : Word) : Bool := decide (units b ≤ units a)

end Sys2Proof.Machine
end

