-- ==== Sys2Proof/Machine/State.lean ====
section
/-! DEFINITION. The state of the block at both levels of description, the environment's choices as plain data, and the state
after reset. 10_state.md, R96, R141. -/

namespace Sys2Proof.Machine

/-- `SEQ` (R25): waiting for a command, executing one, holding its response. -/
inductive Seq where
  | idle
  | exec
  | resp
  deriving DecidableEq, Repr

/-- A response: `rsp_status` and `rsp_data` (R63). -/
structure Response where
  status : BitVec 4
  data : Word
  deriving DecidableEq, Repr

/-- What becomes of a burst (R95). `unfinished` is the burst that has not ended (R148, log 3): the sink has taken `k` words,
`TMR` stands at `ticks`, and the next word is on offer or not. -/
inductive BurstDraw where
  | complete
  | timeout (k : Fin Config.FRAME_WORDS)
  | sinkErr (k : Fin Config.FRAME_WORDS)
  | unfinished (k : Fin Config.FRAME_WORDS) (ticks : Fin Config.TIMEOUT_TICKS) (offering : Bool)
  deriving DecidableEq, Repr

/-- The environment's part in the execution of one command (R19, log 2). -/
structure Pins where
  /-- The level of `dev_ready` when the command is accepted (R34). -/
  devReady : Bool
  /-- The outcome of the burst, should the command start one (R95). -/
  draw : BurstDraw
  /-- Whether the host takes the response (R63, R149). -/
  rspReady : Bool
  deriving DecidableEq, Repr

/-- What the host and the platform do next (logs 1 and 11). -/
inductive Input where
  /-- The host offers a command (R56). -/
  | command (word : CmdWord) (pins : Pins)
  /-- The platform pulses `rst` (R140). -/
  | rst
  deriving DecidableEq, Repr

/-- What the sink receives (R45, R48, R95). -/
inductive SinkEvent where
  /-- A transferred word with its tags `snk_chan` (false left, true right) and `snk_last`. -/
  | word (data : Sample) (chan last : Bool)
  /-- The `snk_abort` mark. -/
  | abort
  deriving DecidableEq, Repr

/-- The frame buffer in the byte view of R42: (address, byte) pairs with strictly rising addresses. An address not listed has
no value (R27: a model holds FB as no value while FV = 0; log 4). -/
abbrev Memory := List Host.Cell

/-- The state of the block (10_state.md), the hidden state of its signal level, and the environment's data. -/
structure State where
  /-- `PHASE` (R20, R21). -/
  phase : Word
  /-- `ASTEP` (R20, R22). -/
  astep : Word
  /-- `AMP` (R20, R23). -/
  amp : Word
  /-- `FB` (R26). -/
  fb : Memory
  /-- `FV` (R27). -/
  fv : Bool
  /-- `STATUS.TOUT` (R28, R29). -/
  tout : Bool
  /-- `STATUS.SNKE` (R28, R29). -/
  snke : Bool
  /-- `STATUS.PERR` (R28, R29). -/
  perr : Bool
  /-- `SEQ` (R25). -/
  seq : Seq
  /-- The sample index of a running `PROD` (R25). -/
  k : Fin Config.N
  /-- The word index of a running `EMIT` (R25). -/
  w : Fin Config.FRAME_WORDS
  /-- `TMR` (R31, R135). -/
  tmr : BitVec 13
  /-- The command accepted last (R56). -/
  cmd : CmdWord
  /-- A burst is active (R96). -/
  burst : Bool
  /-- `snk_valid` (R45, R46). -/
  snkValid : Bool
  /-- `snk_abort` (R48). -/
  snkAbort : Bool
  /-- The response of the command accepted last, once it has one (R63). -/
  rsp : Option Response
  /-- The environment's levels and draw for the command in execution (R19, log 2). -/
  pins : Pins
  /-- What the host and the platform do next (log 1). -/
  inputs : List Input
  /-- What the sink has received, oldest first (log 15). -/
  sinkLog : List SinkEvent
  deriving DecidableEq, Repr

/-- Why the machine stops with a fault. -/
inductive Fault where
  /-- Raised by `RDFB` and `EMIT` when FV = 1 and a byte of FB has no value. The spec has no such state (R27: FV = 1 means FB
  holds a complete frame). Safe: the machine stops where the spec says nothing (log 4). -/
  | frameNoValue
  deriving DecidableEq, Repr

/-- Why a command has no meaning. -/
inductive Refusal where
  /-- Raised by `exec` alone, for a command that has no meaning yet; no arm raises it. Safe. -/
  | notModelled (mnemonic : String)
  deriving DecidableEq, Repr

/-- What one step answers. -/
abbrev Result := Host.Outcome State Fault Refusal

/-- The state right after reset (R36, R141), with an environment that does nothing (logs 1, 2, 5, 6, 15). -/
def State.reset : State where
  phase := 0x00000000#32
  astep := 0x3C696EB5#32
  amp := 0x3F800000#32
  fb := []
  fv := false
  tout := false
  snke := false
  perr := false
  seq := .idle
  k := 0
  w := 0
  tmr := 0#13
  cmd := 0#68
  burst := false
  snkValid := false
  snkAbort := false
  rsp := none
  pins := ⟨false, .complete, true⟩
  inputs := []
  sinkLog := []

end Sys2Proof.Machine
end

