-- ==== Sys2Proof/Machine/Ops.lean ====
section
/-! DEFINITION. The shared operations: the frame buffer, the response and the three non-OK ends of a command (R121), accepting
a command, reset. -/

namespace Sys2Proof.Machine

/-! ## The frame buffer (R26, R40 to R44) -/

/-- The canonical form: addresses strictly rising, all of them bytes of the frame (R42). -/
abbrev Memory.wf (m : Memory) : Prop :=
  m.Pairwise (fun c d => c.1 < d.1) ∧ ∀ c ∈ m, c.1 < Config.FRAME_BYTES

/-- The byte at an address; an unlisted address has no value (R27, log 4). -/
def Memory.readByte (m : Memory) (a : Nat) : Option Byte :=
  match m with
  | [] => none
  | c :: rest => if c.1 = a then some c.2 else Memory.readByte rest a

/-- A run of bytes as cells at rising addresses. -/
def cellsFrom (a : Nat) : List Byte → List Host.Cell
  | [] => []
  | b :: bs => (a, b) :: cellsFrom (a + 1) bs

/-- Write a run of bytes at `a`, `a + 1`, ...; every other address keeps its entry. -/
def Memory.writeRun (m : Memory) (a : Nat) (bs : List Byte) : Memory :=
  m.filter (fun c => decide (c.1 < a)) ++ cellsFrom a bs ++ m.filter (fun c => decide (a + bs.length ≤ c.1))

/-- The low byte of a PCM word (R42). -/
def loByte (v : Sample) : Byte := v.extractLsb' 0 8

/-- The high byte of a PCM word (R42). -/
def hiByte (v : Sample) : Byte := v.extractLsb' 8 8

/-- The two bytes of a PCM word, the low one first (R42). -/
def wordBytes (v : Sample) : List Byte := [loByte v, hiByte v]

/-- `FB[i] <- v` (R11, R42). -/
def Memory.writeWord (m : Memory) (i : Nat) (v : Sample) : Memory := m.writeRun (2 * i) (wordBytes v)

/-- `FB[i]` (R11, R42). -/
def Memory.readWord (m : Memory) (i : Nat) : Option Sample :=
  match m.readByte (2 * i), m.readByte (2 * i + 1) with
  | some lo, some hi => some (hi ++ lo)
  | _, _ => none

/-- The bytes at `a`, ..., `a + n - 1` of a buffer in canonical form, if all of them have a value. -/
def Memory.readRun (m : Memory) (a n : Nat) : Option (List Byte) :=
  match m, n with
  | _, 0 => some []
  | [], _ + 1 => none
  | c :: rest, n + 1 =>
    if c.1 = a then (Memory.readRun rest (a + 1) n).map (c.2 :: ·)
    else if c.1 < a then Memory.readRun rest a (n + 1)
    else none

/-- The words of a run of bytes, the low byte of each first (R42). -/
def bytesWords : List Byte → List Sample
  | lo :: hi :: rest => (hi ++ lo) :: bytesWords rest
  | _ => []

/-- `FB[0], ..., FB[881]`, if every word has a value. -/
def Memory.frame (m : Memory) : Option (List Sample) := (m.readRun 0 Config.FRAME_BYTES).map bytesWords

/-! ## Status codes (R64) -/

def codeOK : BitVec 4 := 0x0#4
def codeILLEGAL : BitVec 4 := 0x1#4
def codeNOFRAME : BitVec 4 := 0x2#4
def codeNOTREADY : BitVec 4 := 0x3#4
def codeTIMEOUT : BitVec 4 := 0x4#4
def codeSINKERR : BitVec 4 := 0x5#4
def codeBADPARAM : BitVec 4 := 0x6#4

/-! ## The end of a command (R63, R121) -/

/-- `respond(status, data)`: the one response of the command is offered (R63). -/
def respond (status : BitVec 4) (data : Word) (s : State) : State :=
  { s with rsp := some ⟨status, data⟩, seq := .resp }

/-- `refuse(status)`: no state changes and the answer is `(status, 0)` (R11, R121). -/
def refuse (status : BitVec 4) (s : State) : State := respond status 0#32 s

/-- The two causes of a failed burst (R122). -/
inductive FailCause where
  | timeout
  | sinkErr
  deriving DecidableEq, Repr

/-- The frame is handed to the sink, then discarded: FV is 0 and FB holds no value (R27). -/
def dropFrame (s : State) : State := { s with fv := false, fb := [] }

/-- The sink receives some more (R47, R51). -/
def sinkPut (es : List SinkEvent) (s : State) : State := { s with sinkLog := s.sinkLog ++ es }

/-- `fail(cause, k)`: the abort mark, FV <- 0, the sticky flag of the cause, the answer `(cause, k)` (R97, R121, R130). -/
def fail (cause : FailCause) (k : Nat) (s : State) : State :=
  let t := dropFrame (sinkPut [.abort] s)
  match cause with
  | .timeout => respond codeTIMEOUT (BitVec.ofNat 32 k) { t with tout := true }
  | .sinkErr => respond codeSINKERR (BitVec.ofNat 32 k) { t with snke := true }

/-- The partial end of a `SETP`: PERR <- 1 and the answer `(BADPARAM, ASTEP)` (R71, R121, R128). -/
def partialEnd (s : State) : State := respond codeBADPARAM s.astep { s with perr := true }

/-! ## Accepting a command, taking the response, reset -/

/-- A command is accepted (R56): the pins are sampled (R34, R111, R125), SEQ is EXEC, and no response exists yet. -/
def accept (word : CmdWord) (pins : Pins) (s : State) : State :=
  { s with cmd := word, pins := pins, seq := .exec, rsp := none, snkAbort := false }

/-- The end of a command: the host takes the response and SEQ is IDLE (R63), or does not and the block holds it (R149); a
command that has no response yet goes on (R148). -/
def settle (s : State) : State :=
  match s.seq with
  | .resp => if s.pins.rspReady then { s with seq := .idle } else s
  | _ => s

/-- `rst` (R140 to R142): the reset state, whatever the block was doing; no response, no abort mark. The environment's data
stays as it is. -/
def applyReset (s : State) : State :=
  { State.reset with pins := s.pins, inputs := s.inputs, sinkLog := s.sinkLog }

end Sys2Proof.Machine
end

