-- ==== Sys2Proof/Machine/Flags.lean ====
section
/-! DEFINITION. The status register and its sticky flags (R28, R29, R113). -/

namespace Sys2Proof.Machine

/-- One flag as the status register's bit `pos`. -/
def flagBit (pos : Nat) (f : Bool) : Word := (if f then 1#32 else 0#32) <<< pos

/-- `STATUS`: READY, FV, TOUT, SNKE, PERR from bit 0 up; bits 31:5 read as 0 (R28). -/
def statusWord (s : State) : Word :=
  flagBit 0 s.pins.devReady ||| flagBit 1 s.fv ||| flagBit 2 s.tout ||| flagBit 3 s.snke ||| flagBit 4 s.perr

/-- Clear the sticky flags that mask bits 4:2 select; the other mask bits are ignored (R113). -/
def clearFlags (mask : Word) (s : State) : State :=
  { s with
    tout := s.tout && !mask.getLsbD 2
    snke := s.snke && !mask.getLsbD 3
    perr := s.perr && !mask.getLsbD 4 }

end Sys2Proof.Machine
end

