-- ==== Sys2Proof/Machine/Operands.lean ====
section
/-! DEFINITION. What the operands of the access commands select (R30, R61, R112). -/

namespace Sys2Proof.Machine

/-- The register that `RDSR` reads; no register has an index of 4 or above (R30, R61). -/
def selectRegister (idx : Word) (s : State) : Option Word :=
  match idx.toNat with
  | 0 => some s.phase
  | 1 => some s.astep
  | 2 => some s.amp
  | 3 => some (statusWord s)
  | _ => none

/-- The frame word index of `RDFB`, all 32 bits compared; none from 882 up (R43, R61). -/
def frameIndex (idx : Word) : Option (Fin Config.FRAME_WORDS) :=
  if h : idx.toNat < Config.FRAME_WORDS then some ⟨idx.toNat, h⟩ else none

end Sys2Proof.Machine
end

