-- ==== Sys2Proof/Machine/Access.lean ====
section
/-! DEFINITION. The access commands NOP, RDSR, RDFB and CLRF. 42_access.md. -/

namespace Sys2Proof.Machine

/-- `NOP` (R110). -/
def execNop (s : State) : Result := .next (respond codeOK 0#32 s)

/-- `RDSR idx` (R111). -/
def execRdsr (idx : Word) (s : State) : Result :=
  match selectRegister idx s with
  | some v => .next (respond codeOK v s)
  | none => .next (refuse codeILLEGAL s)

/-- `RDFB idx`: the index is checked first, then FV (R112, R129). -/
def execRdfb (idx : Word) (s : State) : Result :=
  match frameIndex idx with
  | none => .next (refuse codeILLEGAL s)
  | some i =>
    if s.fv = false then .next (refuse codeNOFRAME s)
    else
      match s.fb.readWord i.val with
      | some v => .next (respond codeOK (v.setWidth 32) s)
      | none => .fault .frameNoValue

/-- `CLRF mask`: answers STATUS after clearing (R113). -/
def execClrf (mask : Word) (s : State) : Result :=
  let t := clearFlags mask s
  .next (respond codeOK (statusWord t) t)

end Sys2Proof.Machine
end

