-- ==== Sys2Proof/Machine/Oscillator.lean ====
section
/-! DEFINITION. The oscillator commands SETP and STEP, the phase accumulator and the sine unit. 40_oscillator.md. -/

namespace Sys2Proof.Machine

/-- A legal phase: one of the patterns 0x00000000 to 0x40C90FDA (R21). -/
def legalPhase (p : Word) : Bool := decide (p.toNat < Config.TWO_PI_F.toNat)

/-- The floored remainder of a finite `t` by `TWO_PI_F`, rounded once, `TWO_PI_F` itself turned into 0 (R73). -/
def wrap (t : Word) : Word :=
  let p := rnd32 false (units t % units Config.TWO_PI_F).toNat 1
  if p = Config.TWO_PI_F then 0x00000000#32 else p

/-- `advance(P, S)` for a legal phase and a finite step (R73); no rule gives it a value for other operands (log 7). -/
def advance (p st : Word) : Word :=
  if legalPhase p && isFinite st then wrap (fadd p st) else Config.unspecifiedPhase p st

/-- `reduce(p)`: the quadrant fold into about [-π/2, π/2] (R75). -/
def reduce (p : Word) : Word :=
  if fge p Config.HALF_PI_F && flt p Config.THREE_HALF_PI_F then fsub Config.PI_F p
  else if fge p Config.THREE_HALF_PI_F then fsub p Config.TWO_PI_F
  else p

/-- `poly(x)`: the degree-7 Horner form, innermost bracket first, one rounding per operation (R76). -/
def poly (x : Word) : Word :=
  let x2 := fmul x x
  let a := fdiv x2 Config.FORTYTWO_F
  let b := fsub Config.ONE_F a
  let c := fmul x2 b
  let d := fdiv c Config.TWENTY_F
  let e := fsub Config.ONE_F d
  let f := fmul x2 e
  let g := fdiv f Config.SIX_F
  let h := fsub Config.ONE_F g
  fmul x h

/-- `sin7(p) = poly(reduce(p))` for a legal phase (R74); no rule gives it a value for other operands (log 7). -/
def sin7 (p : Word) : Word :=
  if legalPhase p then poly (reduce p) else Config.unspecifiedSine p

/-- The step of a frequency, evaluated left to right; none where it is not finite (R71). -/
def stepOf (freq : Word) : Option Word :=
  (fmulAny Config.TWO_PI_F freq).bind (fun m => fdivAny m Config.FS_F)

/-- `SETP freq, amp` (R71). -/
def execSetp (freq amp : Word) (s : State) : Result :=
  let t := { s with amp := amp }
  match stepOf freq with
  | some st => .next (respond codeOK st { t with astep := st })
  | none => .next (partialEnd t)

/-- `STEP`: advance, then the sine of the new phase (R72). -/
def execStep (s : State) : Result :=
  let p := advance s.phase s.astep
  .next (respond codeOK (sin7 p) { s with phase := p })

end Sys2Proof.Machine
end

