-- ==== Sys2Proof/Machine/Frame.lean ====
section
/-! DEFINITION. The frame commands PROD and EMIT, the sample packer and the burst at the command level. 41_frame.md. -/

namespace Sys2Proof.Machine

/-- `trunc16(v)` of a finite `v`: the fraction discarded, saturated to a signed 16-bit integer (R92). -/
def trunc16 (v : Word) : Int :=
  let i := (units v).tdiv (2 ^ 149)
  if 32767 < i then 32767 else if i < -32768 then -32768 else i

/-- `pack(y)`: scale, truncate, bias (R91). No rule gives it a value where y is not finite, nor where the scaled value overflows,
as R92 defines `trunc16` for a finite value only: a free value there (log 7). `AMP` is no input (R99). -/
def pack (y : Word) : Sample :=
  let v := fmul y Config.SCALE_F
  if isFinite y && isFinite v then BitVec.ofInt 16 (trunc16 v + Config.BIAS)
  else Config.unspecifiedSample y

/-- `n` samples in time order from the phase `p` with the step `st`, and the phase after them (R93). -/
def synth (n : Nat) (p st : Word) : List Sample × Word :=
  match n with
  | 0 => ([], p)
  | n + 1 =>
    let p' := advance p st
    let rest := synth n p' st
    (pack (sin7 p') :: rest.1, rest.2)

/-- The bytes of stereo pairs: each sample in the left word, then in the right word (R41, R42). -/
def pairBytes (vs : List Sample) : List Byte := vs.flatMap (fun v => wordBytes v ++ wordBytes v)

/-- `PROD`: 441 samples, each written to both channels, from word 0 up (R93). -/
def execProd (s : State) : Result :=
  let r := synth Config.N s.phase s.astep
  .next (respond codeOK 0#32 { s with phase := r.2, fb := s.fb.writeRun 0 (pairBytes r.1), fv := true })

/-- Word `i` of a burst with its tags: channel `i mod 2`, last for word 881 (R45, R95). -/
def burstWord (i : Nat) (v : Sample) : SinkEvent :=
  .word v (i % 2 == 1) (i == Config.FRAME_WORDS - 1)

/-- Consecutive words of a burst from word `i` on (R47). -/
def burstWords (i : Nat) : List Sample → List SinkEvent
  | [] => []
  | v :: vs => burstWord i v :: burstWords (i + 1) vs

/-- The burst of the frame `ws` with a given outcome (R94, R95, R97); one that has not ended leaves the block where R96
leaves it, without a response (R148, log 3). -/
def burstOutcome (ws : List Sample) (draw : BurstDraw) (s : State) : State :=
  match draw with
  | .complete => respond codeOK (BitVec.ofNat 32 Config.FRAME_WORDS) (dropFrame (sinkPut (burstWords 0 ws) s))
  | .timeout k => fail .timeout k.val (sinkPut (burstWords 0 (ws.take k.val)) s)
  | .sinkErr k => fail .sinkErr k.val (sinkPut (burstWords 0 (ws.take k.val)) s)
  | .unfinished k ticks offering =>
    { sinkPut (burstWords 0 (ws.take k.val)) s with
      burst := true, w := k, tmr := BitVec.ofNat 13 ticks.val, snkValid := offering }

/-- `EMIT` (R94): the checks in the order of R129, then one burst (R52). -/
def execEmit (s : State) : Result :=
  if s.fv = false then .next (refuse codeNOFRAME s)
  else if s.pins.devReady = false then .next (refuse codeNOTREADY s)
  else
    match s.fb.frame with
    | none => .fault .frameNoValue
    | some ws => .next (burstOutcome ws s.pins.draw s)

end Sys2Proof.Machine
end

