-- ==== Sys2Proof/Machine/Dispatch.lean ====
section
/-! DEFINITION. The meaning of each command (R57). -/

namespace Sys2Proof.Machine

def exec (i : Instr) (s : State) : Host.Outcome State Fault Refusal :=
  match i with
  | .nop => Sys2Proof.Machine.execNop s
  | .setp freq amp => Sys2Proof.Machine.execSetp freq amp s
  | .step => Sys2Proof.Machine.execStep s
  | .prod => Sys2Proof.Machine.execProd s
  | .emit => Sys2Proof.Machine.execEmit s
  | .rdsr idx => Sys2Proof.Machine.execRdsr idx s
  | .rdfb idx => Sys2Proof.Machine.execRdfb idx s
  | .clrf mask => Sys2Proof.Machine.execClrf mask s

end Sys2Proof.Machine
end

