-- ==== Sys2Proof/Machine/Command.lean ====
section
/-! DEFINITION. What a step does around the meaning of a command: it takes the environment's next input, accepts the command
it offers, runs what the word decodes to, and lets the host take the response. R18, R25, R56, R63. -/

namespace Sys2Proof.Machine

/-- The command in `word` at the command level: a reserved opcode is refused with `ILLEGAL` (R60, R123), every other word runs
the command it decodes to. -/
def runWord (word : CmdWord) (s : State) : Result :=
  match decode word with
  | .ok i => exec i s
  | .error _ => .next (refuse codeILLEGAL s)

/-- `settle` at the end of a command that answered a next state. -/
def settleResult (r : Result) : Result :=
  match r with
  | .next t => .next (settle t)
  | .fault f => .fault f
  | .refused f => .refused f

/-- One step at the command level (R18). With nothing offered the block is idle and keeps its state (R136). `rst` resets it in
any state (R140). A command is accepted only in IDLE (R56); otherwise nothing is sampled and nothing changes. -/
def commandStep (s : State) : Result :=
  match s.inputs with
  | [] => .next s
  | .rst :: rest => .next (applyReset { s with inputs := rest })
  | .command word pins :: rest =>
    match s.seq with
    | .idle => settleResult (runWord word (accept word pins { s with inputs := rest }))
    | .exec => .next s
    | .resp => .next s

/-- The host offers `word` next, under the present levels of the pins, and the block is ready for it (log 1). -/
def offerWord (word : CmdWord) (s : State) : State :=
  { s with inputs := .command word s.pins :: s.inputs, seq := .idle }

end Sys2Proof.Machine
end

