-- ==== Sys2Proof/Machine/Step.lean ====
section
/-! DEFINITION. The step function: one command from its acceptance to its response (R18). -/

namespace Sys2Proof.Machine

/-- One step of the machine (R18). -/
def step (s : State) : Host.Outcome State Fault Refusal := commandStep s

/-- `s` with the command of a table row's bits as the next one the host offers (log 1). -/
def State.withFetchWord (s : State) (nbits w : Nat) : State :=
  offerWord (BitVec.ofNat 68 (w % 2 ^ nbits)) s

end Sys2Proof.Machine
end

