-- ==== Sys2Proof/Machine/Asm.lean ====
section
/-! DEFINITION. The assembler notation of R66 and the pseudo-instruction FRAME (R67): one line of text to its command words. -/

namespace Sys2Proof.Machine.Asm

def isSpace (c : Char) : Bool := c == ' ' || c == '\t'

/-- A line less its comment, which runs from `;` to its end (R66). -/
def stripComment (l : List Char) : List Char := l.takeWhile (fun c => c != ';')

def trim (l : List Char) : List Char := ((l.dropWhile isSpace).reverse.dropWhile isSpace).reverse

/-- The parts of a text between separators. -/
def parts (sep : Char) : List Char → List (List Char)
  | [] => [[]]
  | c :: cs =>
    match parts sep cs with
    | [] => [[c]]
    | p :: ps => if c == sep then [] :: p :: ps else (c :: p) :: ps

/-- The value of a digit in a base up to 16. -/
def digit (base : Nat) (c : Char) : Option Nat :=
  let n := c.toNat
  let d :=
    if 48 ≤ n ∧ n ≤ 57 then n - 48
    else if 65 ≤ n ∧ n ≤ 70 then n - 55
    else if 97 ≤ n ∧ n ≤ 102 then n - 87
    else 16
  if d < base then some d else none

/-- Digits of a base after the value so far. -/
def digitsFrom (base : Nat) : Nat → List Char → Option Nat
  | acc, [] => some acc
  | acc, c :: cs =>
    match digit base c with
    | some d => digitsFrom base (acc * base + d) cs
    | none => none

/-- A number of at least one digit. -/
def number (base : Nat) (l : List Char) : Option Nat := if l.isEmpty then none else digitsFrom base 0 l

/-- An unsigned integer operand, decimal or `0x` hexadecimal (R66). -/
def integer (l : List Char) : Option Word :=
  let n :=
    match l with
    | '0' :: 'x' :: ds => number 16 ds
    | _ => number 10 l
  match n with
  | some v => if v < 2 ^ 32 then some (BitVec.ofNat 32 v) else none
  | none => none

/-- `rnd32` of the decimal real with these digits before and after its point (R66). -/
def decimal (neg : Bool) (l : List Char) : Option Word :=
  match parts '.' l with
  | [a] => (number 10 a).map (fun n => rnd32 neg (n * 2 ^ 149) 1)
  | [a, b] => if b.isEmpty then none else (number 10 (a ++ b)).map (fun n => rnd32 neg (n * 2 ^ 149) (10 ^ b.length))
  | _ => none

/-- A binary32 operand: `0x` and eight hexadecimal digits, or a decimal real (R66). DESIGN CHOICE (log 17): R66 has no form for a
pattern that is not finite, but V9 and P4 write `NaN` and `+inf`; they stand for the patterns in the words given there. -/
def binary32 (l : List Char) : Option Word :=
  match l with
  | ['N', 'a', 'N'] => some 0x7FC00000#32
  | ['+', 'i', 'n', 'f'] => some 0x7F800000#32
  | '0' :: 'x' :: ds => if ds.length = 8 then (number 16 ds).map (BitVec.ofNat 32) else none
  | '-' :: ds => decimal true ds
  | ds => decimal false ds

/-- A register of `RDSR` by name or number (R66, R30). -/
def register (l : List Char) : Option Word :=
  if l = ['P', 'H', 'A', 'S', 'E'] then some 0#32
  else if l = ['A', 'S', 'T', 'E', 'P'] then some 1#32
  else if l = ['A', 'M', 'P'] then some 2#32
  else if l = ['S', 'T', 'A', 'T', 'U', 'S'] then some 3#32
  else integer l

/-- The mask of one flag name (R66). -/
def flagName (l : List Char) : Option Word :=
  if l = ['T', 'O', 'U', 'T'] then some 4#32
  else if l = ['S', 'N', 'K', 'E'] then some 8#32
  else if l = ['P', 'E', 'R', 'R'] then some 16#32
  else none

/-- Flag names joined with `|`. -/
def flagNames : List (List Char) → Option Word
  | [] => some 0#32
  | n :: ns =>
    match flagName (trim n), flagNames ns with
    | some m, some ms => some (m ||| ms)
    | _, _ => none

/-- A mask of `CLRF`: an integer, or flag names joined with `|` (R66). -/
def mask (l : List Char) : Option Word :=
  match integer l with
  | some m => some m
  | none => flagNames (parts '|' l)

/-- The commands of a mnemonic with its operands; `FRAME` is `PROD` then `EMIT` (R66, R67). -/
def commands (mnemonic : List Char) (operands : List (List Char)) : Option (List Instr) :=
  match mnemonic, operands with
  | ['N', 'O', 'P'], [] => some [.nop]
  | ['S', 'E', 'T', 'P'], [f, a] =>
    match binary32 f, binary32 a with
    | some freq, some amp => some [.setp freq amp]
    | _, _ => none
  | ['S', 'T', 'E', 'P'], [] => some [.step]
  | ['P', 'R', 'O', 'D'], [] => some [.prod]
  | ['E', 'M', 'I', 'T'], [] => some [.emit]
  | ['R', 'D', 'S', 'R'], [i] => (register i).map (fun r => [.rdsr r])
  | ['R', 'D', 'F', 'B'], [i] => (integer i).map (fun n => [.rdfb n])
  | ['C', 'L', 'R', 'F'], [m] => (mask m).map (fun n => [.clrf n])
  | ['F', 'R', 'A', 'M', 'E'], [] => some framePseudo
  | _, _ => none

/-- One line of assembler text to its command words; none where it is no line of the notation (R66). -/
def assemble (line : List Char) : Option (List CmdWord) :=
  let l := trim (stripComment line)
  if l.isEmpty then some []
  else
    let rest := trim (l.dropWhile (fun c => !isSpace c))
    let operands := if rest.isEmpty then [] else (parts ',' rest).map trim
    (commands (l.takeWhile (fun c => !isSpace c)) operands).map (fun is => is.map encode)

end Sys2Proof.Machine.Asm
end

