-- ==== Sys2Proof/Machine/Signal.lean ====
section
/-! DEFINITION. The signal level: one step is one `clk` cycle, over the same State. It realises the command level (R18): the
command and response handshakes (R56, R63), the sink stream and its burst (R45 to R50, R96), reset (R140, R142). The latencies
the spec leaves open (R152) are the input `go` (log 12). -/

namespace Sys2Proof.Machine

/-- The input ports in one cycle (R33), and the block's own open timing. -/
structure CycleIn where
  rst : Bool
  cmdValid : Bool
  cmdOp : BitVec 4
  cmdA : Word
  cmdB : Word
  rspReady : Bool
  devReady : Bool
  fsCe : Bool
  snkReady : Bool
  snkErr : Bool
  /-- The block does its next piece of work in this cycle: a sample, a whole short command, the offer of a word, the offer of a
  response. R152 leaves when it does open. -/
  go : Bool
  deriving DecidableEq, Repr

/-- The output ports in one cycle (R33); none where the spec leaves an output without a value (R36, R45, U11). -/
structure CycleOut where
  cmdReady : Bool
  rspValid : Bool
  rspStatus : Option (BitVec 4)
  rspData : Option Word
  snkValid : Bool
  snkData : Option Sample
  snkChan : Option Bool
  snkLast : Bool
  snkAbort : Bool
  deriving DecidableEq, Repr

/-- The command word on the port (R55). -/
def CycleIn.word (c : CycleIn) : CmdWord := CmdWord.mk c.cmdOp c.cmdA c.cmdB

/-- The word on offer is word 881 (R45, R48). -/
def atLastWord (s : State) : Bool := s.w.val == Config.FRAME_WORDS - 1

/-- The outputs are functions of the state (R45, R56, R63). -/
def outputs (s : State) : CycleOut where
  cmdReady := s.seq == .idle
  rspValid := s.seq == .resp
  rspStatus := if s.seq == .resp then s.rsp.map (·.status) else none
  rspData := if s.seq == .resp then s.rsp.map (·.data) else none
  snkValid := s.snkValid
  snkData := if s.snkValid then s.fb.readWord s.w.val else none
  snkChan := if s.snkValid then some (s.w.val % 2 == 1) else none
  snkLast := s.snkValid && atLastWord s
  snkAbort := s.snkAbort

/-- A command is accepted (R56). An `EMIT` that is not refused clears `TMR` and the word index and starts its burst, which is
active from the next cycle (R96); a `PROD` starts at sample 0. -/
def acceptCycle (c : CycleIn) (s : State) : State :=
  let t := accept c.word { s.pins with devReady := c.devReady } s
  match decode c.word with
  | .ok .emit =>
    if t.fv && c.devReady then { t with burst := true, tmr := 0#13, w := 0, snkValid := c.go } else t
  | .ok .prod => { t with k := 0 }
  | _ => t

/-- One sample of a running `PROD`; the 441st completes the frame and the command (R93). -/
def prodCycle (s : State) : State :=
  let p := advance s.phase s.astep
  let v := pack (sin7 p)
  let t := { s with phase := p, fb := (s.fb.writeWord (2 * s.k.val) v).writeWord (2 * s.k.val + 1) v }
  if s.k.val = Config.N - 1 then respond codeOK 0#32 { t with k := 0, fv := true }
  else { t with k := s.k + 1 }

/-- The burst is over: nothing is offered, and the response is offered in the next cycle or later (R48, R63, R152). `TMR` and the
word index hold no information any more (R25, log 5). -/
def endBurst (c : CycleIn) (aborted : Bool) (s : State) : State :=
  { s with
    burst := false, w := 0, tmr := 0#13, snkValid := false, snkAbort := aborted
    seq := if c.go then .resp else .exec }

/-- The word on offer is transferred (R46). -/
def transfer (s : State) (after : State → State) : Result :=
  match s.fb.readWord s.w.val with
  | some v => .next (after (sinkPut [burstWord s.w.val v] s))
  | none => .fault .frameNoValue

/-- Case (4) of R96: the time counts, and the word on offer goes if the sink takes it. -/
def burstGoesOn (c : CycleIn) (s : State) : Result :=
  let t := if c.fsCe then { s with tmr := s.tmr + 1#13 } else s
  if s.snkValid && c.snkReady then transfer t (fun u => { u with w := u.w + 1, snkValid := c.go })
  else .next { t with snkValid := s.snkValid || c.go }

/-- A cycle of an active burst: the first of the cases (1) to (4) of R96 whose condition holds. -/
def burstCycle (c : CycleIn) (s : State) : Result :=
  if c.snkErr then .next (endBurst c true (fail .sinkErr s.w.val s))
  else if s.snkValid && c.snkReady && atLastWord s then
    transfer s (fun u => endBurst c false (respond codeOK (BitVec.ofNat 32 Config.FRAME_WORDS) (dropFrame u)))
  else if c.fsCe && s.tmr.toNat == Config.TIMEOUT_TICKS - 1 then .next (endBurst c true (fail .timeout s.w.val s))
  else burstGoesOn c s

/-- A cycle of a command in execution. A command that is neither a burst nor a `PROD` has its whole effect in one cycle. -/
def execCycle (c : CycleIn) (s : State) : Result :=
  if s.burst then burstCycle c s
  else if c.go = false then .next s
  else if s.rsp.isSome then .next { s with seq := .resp }
  else
    match decode s.cmd with
    | .ok .prod => .next (prodCycle s)
    | _ => runWord s.cmd s

/-- One `clk` cycle. `rst` wins over everything (R140); `snk_abort` lasts one cycle (R48). DESIGN CHOICE (log 11): no handshake
takes place in a cycle with `rst` = 1, so a word on offer then is not recorded as transferred, whatever `snk_ready` is; R46 read
alone counts it, and D30 leaves open what the sink has. -/
def cycle (c : CycleIn) (s : State) : Result :=
  if c.rst then .next (applyReset s)
  else
    let t := { s with snkAbort := false }
    match s.seq with
    | .idle => .next (if c.cmdValid then acceptCycle c t else t)
    | .exec => execCycle c t
    | .resp => .next (if c.rspReady then { t with seq := .idle } else t)

/-- Cycles until a response is offered: the signal level's run of one command (R18). -/
def runToResponse (cs : List CycleIn) (s : State) : Result :=
  match cs with
  | [] => .next s
  | c :: rest =>
    if s.seq = .resp then .next s
    else
      match cycle c s with
      | .next t => runToResponse rest t
      | .fault f => .fault f
      | .refused f => .refused f

end Sys2Proof.Machine
end

