-- ==== Sys2Proof/Safety.lean ====
section
/-! DEFINITION. The terms that claims use: the value of a binary32 pattern as a rational and what rounding to nearest means (R12,
R13), the frame held in FB, and the invariant of every run at the command level. -/

namespace Sys2Proof

open Sys2Proof.Machine

/-- `val(u)` of a finite pattern, as R12 writes it. -/
def val (u : Word) : ℚ :=
  if expField u = 0 then (-1) ^ u.msb.toNat * (fracField u : ℚ) * (2 : ℚ) ^ (-149 : ℤ)
  else (-1) ^ u.msb.toNat * ((2 : ℚ) ^ 23 + (fracField u : ℚ)) * (2 : ℚ) ^ ((expField u : ℤ) - 150)

/-- `u` is what R13 calls the rounding of `r`: an infinity of the sign of r from 2^128 - 2^103 up; below that a finite pattern
whose value no other finite value is nearer to r than, and on a tie its fraction field is even. -/
def RoundsTo (r : ℚ) (u : Word) : Prop :=
  if (2 : ℚ) ^ 128 - 2 ^ 103 ≤ |r| then u = (if r < 0 then 0xFF800000#32 else 0x7F800000#32)
  else
    isFinite u = true ∧
      ∀ v : Word, isFinite v = true →
        |val u - r| ≤ |val v - r| ∧ (val v ≠ val u → |val v - r| = |val u - r| → fracField u % 2 = 0)

/-- FB holds a complete frame whose left and right words are equal (R26, R27, R41). -/
def completeFrame (m : Memory) : Prop :=
  (∀ i < Config.FRAME_WORDS, (m.readWord i).isSome = true) ∧
    ∀ k < Config.N, m.readWord (2 * k) = m.readWord (2 * k + 1)

/-- The state after `n` commands `STEP`, each answered by a next state. -/
def stepTimes : Nat → State → Option State
  | 0, s => some s
  | n + 1, s =>
    match stepTimes n s with
    | none => none
    | some t =>
      match exec .step t with
      | .next u => some u
      | .fault _ => none
      | .refused _ => none

/-- The state after some commands, each answered by a next state. -/
def runCommands : List Instr → State → Option State
  | [], s => some s
  | i :: rest, s =>
    match exec i s with
    | .next t => runCommands rest t
    | .fault _ => none
    | .refused _ => none

/-- The words of a burst from word 0 on, tagged with channel and last (R45, R95). -/
def taggedWords (ws : List Sample) : List SinkEvent :=
  ws.mapIdx (fun i v => .word v (decide (i % 2 = 1)) (decide (i = 881)))

/-- What holds between any two steps of every run. -/
structure Inv (s : State) : Prop where
  /-- R21. -/
  phase : legalPhase s.phase = true
  /-- R22. -/
  astep : isFinite s.astep = true
  /-- The canonical form of FB (log 4). -/
  wf : s.fb.wf
  /-- While FV = 0, FB holds no value (R27). -/
  noFrame : s.fv = false → s.fb = []
  /-- FV = 1 means FB holds a complete frame (R27). -/
  frame : s.fv = true → completeFrame s.fb
  /-- Between steps the block executes only a burst that has not ended (R25, R148). -/
  seqExec : s.seq = .exec ↔ s.burst = true
  /-- A burst sends the frame that FB holds (R94). -/
  burstFrame : s.burst = true → s.fv = true
  /-- Outside a burst the word index and `TMR` hold no information and nothing is offered (R25, R45, log 5). -/
  burstIdle : s.burst = false → s.w = 0 ∧ s.tmr = 0#13 ∧ s.snkValid = false
  /-- Outside a `PROD` the sample index holds no information (R25, log 5). -/
  sampleIdle : s.k = 0
  /-- The count of a burst is below its bound (R96). -/
  tmrBound : s.tmr.toNat < Config.TIMEOUT_TICKS
  /-- `snk_abort` is 0 but for one cycle after an abort (R48). -/
  abortIdle : s.snkAbort = false

end Sys2Proof
end

