-- ==== Sys2Proof/Certificates/Slice0/Obligations.lean ====
section
/-! DEFINITION. The statements for the provers. Status codes, constants and bit positions are written as the spec's literals. -/

open Sys2Proof Sys2Proof.Machine

/-! ## Encoding -/

/-- The words of V13 decode as 95_test_vectors.md says, the reserved ones to no command (R55, R57, R58, R60). -/
def Obligations.SpecWordsDecode : Prop :=
  decode 0x00000000000000000#68 = .ok .nop ∧
    decode 0x143DC80003F000000#68 = .ok (.setp 0x43DC8000#32 0x3F000000#32) ∧
    decode 0x143FA00003DCCCCCD#68 = .ok (.setp 0x43FA0000#32 0x3DCCCCCD#32) ∧
    decode 0x1C3DC800000000000#68 = .ok (.setp 0xC3DC8000#32 0x00000000#32) ∧
    decode 0x20000000000000000#68 = .ok .step ∧
    decode 0x2FFFFFFFFFFFFFFFF#68 = .ok .step ∧
    decode 0x30000000000000000#68 = .ok .prod ∧
    decode 0x40000000000000000#68 = .ok .emit ∧
    decode 0x50000000300000000#68 = .ok (.rdsr 3#32) ∧
    decode 0x60000037100000000#68 = .ok (.rdfb 881#32) ∧
    decode 0x70000001C00000000#68 = .ok (.clrf 0x1C#32) ∧
    decode 0x80000000000000000#68 = .error (.reservedOpcode 0x8#4) ∧
    decode 0xFFFFFFFFFFFFFFFFF#68 = .error (.reservedOpcode 0xF#4) ∧
    ∀ (op : BitVec 4) (a b : Word), 8 ≤ op.toNat → decode (CmdWord.mk op a b) = .error (.reservedOpcode op)

/-- Decoding the word of a command gives the command back, with every operand at every value (R55, R57, R58). -/
def Obligations.EncodeThenDecode : Prop :=
  ∀ i : Instr, decode (encode i) = .ok i

/-- The opcode alone decides what is decoded: 0 to 7 the command of that opcode, 8 to 15 nothing, by name (R57, R60). -/
def Obligations.OpcodeDecidesDecoding : Prop :=
  ∀ c : CmdWord,
    (c.toNat < 8 * 2 ^ 64 → ∃ i, decode c = .ok i ∧ i.opcode.toNat = c.toNat / 2 ^ 64) ∧
      (8 * 2 ^ 64 ≤ c.toNat → decode c = .error (.reservedOpcode (BitVec.ofNat 4 (c.toNat / 2 ^ 64))))

/-- R59: the operand fields that R57 marks unused, and the bits 31:5 and 1:0 of the mask of CLRF, take any value and have no
effect. -/
def Obligations.UnusedOperandBitsIgnored : Prop :=
  ∀ (s : State) (a a' b b' : Word),
    (∀ op : BitVec 4, op.toNat < 8 → ∃ i, decode (CmdWord.mk op a b) = .ok i) ∧
      (∀ op ∈ [0#4, 2#4, 3#4, 4#4], runWord (CmdWord.mk op a b) s = runWord (CmdWord.mk op a' b') s) ∧
      (∀ op ∈ [5#4, 6#4], runWord (CmdWord.mk op a b) s = runWord (CmdWord.mk op a b') s) ∧
      ((∀ n ∈ [2, 3, 4], a.getLsbD n = a'.getLsbD n) →
        runWord (CmdWord.mk 7#4 a b) s = runWord (CmdWord.mk 7#4 a' b') s)

/-! ## The step -/

/-- A step runs the decoded command: the pins are sampled, the command is accepted, its meaning runs, the host takes the response
(R18, R56, R63). A command offered while SEQ is EXEC or RESP is not accepted: nothing changes and it stays on offer (R56). The queue
and the pins are the model's form of the environment (logs 1, 2). -/
def Obligations.StepRunsDecodedCommand : Prop :=
  ∀ (s : State) (word : CmdWord) (pins : Pins) (rest : List Input), s.inputs = .command word pins :: rest →
    (∀ i : Instr, s.seq = .idle → decode word = .ok i →
      step s = settleResult (exec i
        { s with inputs := rest, cmd := word, pins := pins, seq := .exec, rsp := none, snkAbort := false })) ∧
      (s.seq ≠ .idle → step s = .next s)

/-- The word that withFetchWord places is the next command the step runs (log 1). -/
def Obligations.FetchWordRunsNext : Prop :=
  ∀ (s : State) (w : Nat) (i : Instr),
    w < 2 ^ 68 → decodeTableWord 72 w = some i →
      step (s.withFetchWord 72 w) = settleResult (exec i
        { s with cmd := BitVec.ofNat 68 w, seq := .exec, rsp := none, snkAbort := false })

/-- R60: a reserved opcode is refused with (ILLEGAL, 0); no state changes, the sink receives nothing. -/
def Obligations.ReservedOpcodesRefused : Prop :=
  ∀ (s : State) (word : CmdWord) (pins : Pins) (rest : List Input),
    s.seq = .idle → s.inputs = .command word pins :: rest → 8 * 2 ^ 64 ≤ word.toNat →
      step s = .next { s with
        inputs := rest, cmd := word, pins := pins, snkAbort := false, rsp := some ⟨0x1#4, 0#32⟩,
        seq := if pins.rspReady then .idle else .resp }

/-! ## The access commands -/

/-- R110: NOP answers (OK, 0) and does nothing else. -/
def Obligations.NopAnswersOk : Prop :=
  (∀ a b : Word, decode (CmdWord.mk 0x0#4 a b) = .ok .nop) ∧
    ∀ s : State, exec .nop s = .next { s with rsp := some ⟨0x0#4, 0#32⟩, seq := .resp }

/-- R61: an index out of range is refused with (ILLEGAL, 0) and nothing changes; the comparison is on all 32 bits. -/
def Obligations.OutOfRangeIndicesRefused : Prop :=
  ∀ (s : State) (idx : Word),
    (4 ≤ idx.toNat → exec (.rdsr idx) s = .next { s with rsp := some ⟨0x1#4, 0#32⟩, seq := .resp }) ∧
      (882 ≤ idx.toNat → exec (.rdfb idx) s = .next { s with rsp := some ⟨0x1#4, 0#32⟩, seq := .resp })

/-- RDSR answers the selected register bit for bit and changes nothing (R30, R111). -/
def Obligations.RdsrAnswersRegister : Prop :=
  (∀ a b : Word, decode (CmdWord.mk 0x5#4 a b) = .ok (.rdsr a)) ∧
    ∀ s : State,
      exec (.rdsr 0#32) s = .next { s with rsp := some ⟨0x0#4, s.phase⟩, seq := .resp } ∧
        exec (.rdsr 1#32) s = .next { s with rsp := some ⟨0x0#4, s.astep⟩, seq := .resp } ∧
        exec (.rdsr 2#32) s = .next { s with rsp := some ⟨0x0#4, s.amp⟩, seq := .resp } ∧
        exec (.rdsr 3#32) s = .next { s with rsp := some ⟨0x0#4, statusWord s⟩, seq := .resp }

/-- The layout of STATUS, bit by bit; bits 31:5 read as 0 (R28). -/
def Obligations.StatusLayout : Prop :=
  ∀ s : State,
    (statusWord s).getLsbD 0 = s.pins.devReady ∧
      (statusWord s).getLsbD 1 = s.fv ∧
      (statusWord s).getLsbD 2 = s.tout ∧
      (statusWord s).getLsbD 3 = s.snke ∧
      (statusWord s).getLsbD 4 = s.perr ∧
      ∀ n, 5 ≤ n → (statusWord s).getLsbD n = false

/-- R112: RDFB of a legal index answers NOFRAME while FV = 0 and the zero-extended word while FV = 1, and changes nothing. -/
def Obligations.RdfbAnswersFrameWord : Prop :=
  (∀ a b : Word, decode (CmdWord.mk 0x6#4 a b) = .ok (.rdfb a)) ∧
    (∀ (s : State) (idx : Word), 882 ≤ idx.toNat →
      exec (.rdfb idx) s = .next { s with rsp := some ⟨0x1#4, 0#32⟩, seq := .resp }) ∧
    (∀ (s : State) (idx : Word), idx.toNat < 882 → s.fv = false →
      exec (.rdfb idx) s = .next { s with rsp := some ⟨0x2#4, 0#32⟩, seq := .resp }) ∧
    ∀ (s : State) (idx : Word) (v : Sample), idx.toNat < 882 → s.fv = true → s.fb.readWord idx.toNat = some v →
      exec (.rdfb idx) s = .next { s with rsp := some ⟨0x0#4, v.zeroExtend 32⟩, seq := .resp }

/-- R113: CLRF clears exactly the sticky flags that mask bits 2, 3, 4 select and answers STATUS after clearing. -/
def Obligations.ClrfClearsSelectedFlags : Prop :=
  (∀ a b : Word, decode (CmdWord.mk 0x7#4 a b) = .ok (.clrf a)) ∧
    ∀ (s : State) (mask : Word), ∃ t : State,
      t = { s with
        tout := if mask.getLsbD 2 then false else s.tout
        snke := if mask.getLsbD 3 then false else s.snke
        perr := if mask.getLsbD 4 then false else s.perr } ∧
      exec (.clrf mask) s = .next { t with rsp := some ⟨0x0#4, statusWord t⟩, seq := .resp }

/-- The byte view of a frame is little-endian (R42). -/
def Obligations.ByteViewLittleEndian : Prop :=
  ∀ (m : Memory) (i : Nat) (v : Sample), m.readWord i = some v →
    m.readByte (2 * i) = some (v.extractLsb' 0 8) ∧ m.readByte (2 * i + 1) = some (v.extractLsb' 8 8)

/-! ## The oscillator commands -/

/-- SETP stores the amplitude verbatim in every case, and the step if it is finite; otherwise the step stays, PERR is set and the
answer is (BADPARAM, ASTEP). Nothing else changes, the phase in particular (R71, R81). -/
def Obligations.SetpSetsParameters : Prop :=
  (∀ a b : Word, decode (CmdWord.mk 0x1#4 a b) = .ok (.setp a b)) ∧
    ∀ (s : State) (a b : Word),
      let m := fmul 0x40C90FDB#32 a
      let st := fdiv m 0x472C4400#32
      (isFinite a = true ∧ isFinite m = true ∧ isFinite st = true →
        exec (.setp a b) s = .next { s with amp := b, astep := st, rsp := some ⟨0x0#4, st⟩, seq := .resp }) ∧
      (¬(isFinite a = true ∧ isFinite m = true ∧ isFinite st = true) →
        exec (.setp a b) s =
          .next { s with amp := b, perr := true, rsp := some ⟨0x6#4, s.astep⟩, seq := .resp })

/-- SETP answers BADPARAM exactly from the magnitude 0x7E22F983 up, NaN and infinity included, and OK below (R71). -/
def Obligations.SetpRefusalThreshold : Prop :=
  ∀ (s : State) (a b : Word), ∃ t : State, exec (.setp a b) s = .next t ∧
    ((∃ d, t.rsp = some ⟨0x6#4, d⟩) ↔ 0x7E22F983 ≤ (a &&& 0x7FFFFFFF#32).toNat) ∧
    ((∃ d, t.rsp = some ⟨0x0#4, d⟩) ↔ (a &&& 0x7FFFFFFF#32).toNat ≤ 0x7E22F982)

/-- STEP writes the advanced phase and answers the sine of the new phase; nothing else changes (R72). What the sine is says
SineIsRoundedPolynomial. -/
def Obligations.StepAdvancesAndSamples : Prop :=
  (∀ a b : Word, decode (CmdWord.mk 0x2#4 a b) = .ok .step) ∧
    ∀ s : State,
      exec .step s = .next { s with
        phase := advance s.phase s.astep
        rsp := some ⟨0x0#4, sin7 (advance s.phase s.astep)⟩
        seq := .resp }

/-! ## The frame commands -/

/-- PROD answers (OK, 0), sets FV, and writes only PHASE and the 1764 bytes of FB besides (R93, R101). -/
def Obligations.ProdCompletes : Prop :=
  (∀ a b : Word, decode (CmdWord.mk 0x3#4 a b) = .ok .prod) ∧
    ∀ s : State, ∃ (p : Word) (m : Memory),
      exec .prod s = .next { s with phase := p, fb := m, fv := true, rsp := some ⟨0x0#4, 0#32⟩, seq := .resp } ∧
        completeFrame m ∧ ∀ x, 1764 ≤ x → m.readByte x = s.fb.readByte x

/-- PROD is 441 STEPs: the phase after it is theirs, and both words of pair k hold the packed value of the (k+1)-th (R93). -/
def Obligations.ProdIs441Steps : Prop :=
  ∀ s : State, ∃ t u : State,
    exec .prod s = .next t ∧ stepTimes 441 s = some u ∧ t.phase = u.phase ∧
      ∀ k < 441, ∃ (x : State) (y : Word),
        stepTimes (k + 1) s = some x ∧ x.rsp = some ⟨0x0#4, y⟩ ∧
          t.fb.readWord (2 * k) = some (pack y) ∧ t.fb.readWord (2 * k + 1) = some (pack y)

/-- EMIT without a frame is refused with NOFRAME whatever dev_ready is, and with a frame but without dev_ready with NOTREADY;
nothing changes, so the frame is kept (R94, R124, R125, R129). -/
def Obligations.EmitRefusals : Prop :=
  ∀ s : State,
    (s.fv = false → exec .emit s = .next { s with rsp := some ⟨0x2#4, 0#32⟩, seq := .resp }) ∧
      (s.fv = true → s.pins.devReady = false →
        exec .emit s = .next { s with rsp := some ⟨0x3#4, 0#32⟩, seq := .resp })

/-- A burst that completes sends the 882 words of FB in order, tagged, discards the frame and answers (OK, 882); nothing else
changes (R27, R94, R95; how FB is held is log 4). -/
def Obligations.EmitCompleteSendsFrame : Prop :=
  (∀ a b : Word, decode (CmdWord.mk 0x4#4 a b) = .ok .emit) ∧
    ∀ s : State, s.fv = true → s.fb.wf → completeFrame s.fb → s.pins.devReady = true → s.pins.draw = .complete →
      ∃ ws : List Sample, ws.length = 882 ∧ (∀ i < 882, s.fb.readWord i = ws[i]?) ∧
        exec .emit s = .next { s with
          fv := false, fb := [], sinkLog := s.sinkLog ++ taggedWords ws, rsp := some ⟨0x0#4, 882#32⟩, seq := .resp }

/-- A burst that fails after k words has sent FB[0..k-1] in order and then the abort mark; the frame is dropped, the sticky flag
of the cause is set, the answer carries the cause and k; nothing else changes (R27, R51, R95, R97, R130). That FB is the empty list
once the frame is dropped is how the model holds "no value" (R27, log 4). -/
def Obligations.EmitFailureDropsFrame : Prop :=
  ∀ (s : State) (k : Fin 882), s.fv = true → s.fb.wf → completeFrame s.fb → s.pins.devReady = true →
    ∃ ws : List Sample, ws.length = k.val ∧ (∀ i < k.val, s.fb.readWord i = ws[i]?) ∧
      (s.pins.draw = .timeout k →
        exec .emit s = .next { s with
          fv := false, fb := [], tout := true, sinkLog := s.sinkLog ++ taggedWords ws ++ [.abort]
          rsp := some ⟨0x4#4, BitVec.ofNat 32 k.val⟩, seq := .resp }) ∧
      (s.pins.draw = .sinkErr k →
        exec .emit s = .next { s with
          fv := false, fb := [], snke := true, sinkLog := s.sinkLog ++ taggedWords ws ++ [.abort]
          rsp := some ⟨0x5#4, BitVec.ofNat 32 k.val⟩, seq := .resp })

/-- A burst that has not ended has sent FB[0..k-1] in order and gives no response (R148; the draw is the model's, log 3). -/
def Obligations.EmitUnfinishedWaits : Prop :=
  ∀ (s : State) (k : Fin 882) (ticks : Fin 4410) (offering : Bool),
    s.fv = true → s.fb.wf → completeFrame s.fb → s.pins.devReady = true → s.pins.draw = .unfinished k ticks offering →
      ∃ ws : List Sample, ws.length = k.val ∧ (∀ i < k.val, s.fb.readWord i = ws[i]?) ∧
        exec .emit s = .next { s with
          burst := true, w := k, tmr := BitVec.ofNat 13 ticks.val, snkValid := offering
          sinkLog := s.sinkLog ++ taggedWords ws }

/-- R103: whatever the outcomes of an EMIT that has ended, the oscillator is as before and the next PROD gives the same frame. -/
def Obligations.TransientFailureIsolation : Prop :=
  ∀ (s : State) (d d' : BurstDraw), s.fv = true → s.fb.wf → completeFrame s.fb → s.pins.devReady = true →
    (∀ k ticks o, d ≠ .unfinished k ticks o) → (∀ k ticks o, d' ≠ .unfinished k ticks o) →
      ∃ t t' u u' : State,
        exec .emit { s with pins := { s.pins with draw := d } } = .next t ∧
          exec .emit { s with pins := { s.pins with draw := d' } } = .next t' ∧
          t.phase = s.phase ∧ t.astep = s.astep ∧ t.amp = s.amp ∧
          exec .prod t = .next u ∧ exec .prod t' = .next u' ∧
          u.phase = u'.phase ∧ u.fb = u'.fb ∧ u.fv = u'.fv ∧ u.rsp = u'.rsp

/-- The amplitude is stored and never applied: no command but RDSR answers, sends or writes anything that depends on it (R23,
R99). -/
def Obligations.AmplitudeNotApplied : Prop :=
  ∀ (i : Instr) (s t : State) (a : Word), exec i s = .next t →
    (∀ idx, i ≠ .rdsr idx) →
      ((∀ f b, i ≠ .setp f b) → exec i { s with amp := a } = .next { t with amp := a }) ∧
        ((∃ f b, i = .setp f b) → exec i { s with amp := a } = .next t)

/-! ## Arithmetic -/

/-- The integer the model computes with is the value of R12 in units of 2^-149. -/
def Obligations.UnitsAreValues : Prop :=
  ∀ u : Word, isFinite u = true → val u = (units u : ℚ) * (2 : ℚ) ^ (-149 : ℤ)

/-- The model's rounding is the rounding of R13: nearest, ties to even, infinity from 2^128 - 2^103 up, nothing flushed to
zero. -/
def Obligations.RoundingIsNearestEven : Prop :=
  ∀ (neg : Bool) (n d : Nat), 0 < d →
    RoundsTo ((if neg then -1 else 1) * ((n : ℚ) / d) * (2 : ℚ) ^ (-149 : ℤ)) (rnd32 neg n d)

/-- fadd and fsub of finite operands round the exact sum once; an exact zero is -0 only if both summands are -0; fsub is
fadd with the second sign inverted, so its exact zero is -0 only for -0 - (+0) (R14). -/
def Obligations.SumsRoundOnce : Prop :=
  ∀ a b : Word, isFinite a = true → isFinite b = true →
    RoundsTo (val a + val b) (fadd a b) ∧
      RoundsTo (val a - val b) (fsub a b) ∧
      (val a + val b = 0 →
        fadd a b = if a = 0x80000000#32 ∧ b = 0x80000000#32 then 0x80000000#32 else 0x00000000#32) ∧
      fsub a b = fadd a (b ^^^ 0x80000000#32) ∧
      (val a - val b = 0 →
        fsub a b = if a = 0x80000000#32 ∧ b = 0x00000000#32 then 0x80000000#32 else 0x00000000#32)

/-- fmul of finite operands rounds the exact product once; a zero product has the exclusive-or of the signs (R14). -/
def Obligations.ProductsRoundOnce : Prop :=
  ∀ a b : Word, isFinite a = true → isFinite b = true →
    RoundsTo (val a * val b) (fmul a b) ∧
      (val a * val b = 0 → fmul a b = if a.msb = b.msb then 0x00000000#32 else 0x80000000#32)

/-- fdiv of finite operands, the divisor not zero, rounds the exact quotient once; a zero quotient has the exclusive-or of the
signs (R14). -/
def Obligations.QuotientsRoundOnce : Prop :=
  ∀ a b : Word, isFinite a = true → isFinite b = true → val b ≠ 0 →
    RoundsTo (val a / val b) (fdiv a b) ∧
      (val a = 0 → fdiv a b = if a.msb = b.msb then 0x00000000#32 else 0x80000000#32)

/-- R16: comparisons compare values as real numbers; +0 and -0 compare equal. -/
def Obligations.ComparisonsCompareValues : Prop :=
  (∀ a b : Word, isFinite a = true → isFinite b = true →
      (flt a b = true ↔ val a < val b) ∧ (fge a b = true ↔ val b ≤ val a)) ∧
    flt 0x80000000#32 0x00000000#32 = false ∧ flt 0x00000000#32 0x80000000#32 = false ∧
    fge 0x80000000#32 0x00000000#32 = true ∧ fge 0x00000000#32 0x80000000#32 = true

/-- The legal phases are exactly the patterns 0x00000000 to 0x40C90FDA: finite, sign bit 0, value in [0, TWO_PI_F) (R21). -/
def Obligations.LegalPhasesAreTheInterval : Prop :=
  ∀ p : Word,
    (legalPhase p = true ↔ p.toNat ≤ 0x40C90FDA) ∧
      (legalPhase p = true ↔
        isFinite p = true ∧ p.msb = false ∧ 0 ≤ val p ∧ val p < val 0x40C90FDB#32)

/-- The phase accumulator: the sum is finite, its floored remainder by TWO_PI_F is rounded once, TWO_PI_F is turned into 0, and the
result is never -0 (R73). -/
def Obligations.AdvanceIsFlooredRemainder : Prop :=
  ∀ p st : Word, legalPhase p = true → isFinite st = true →
    let t := fadd p st
    let m := val 0x40C90FDB#32
    let r := val t - m * (⌊val t / m⌋ : ℚ)
    isFinite t = true ∧ 0 ≤ r ∧ r < m ∧
      ∃ q : Word, RoundsTo r q ∧ q.msb = false ∧
        advance p st = if q = 0x40C90FDB#32 then 0x00000000#32 else q

/-- Fact (b) of R73: the remainder of a sum that is not negative is exact. -/
def Obligations.ForwardAdvanceIsExact : Prop :=
  ∀ p st : Word, legalPhase p = true → isFinite st = true → 0 ≤ val (fadd p st) →
    val (advance p st) =
      val (fadd p st) - val 0x40C90FDB#32 * (⌊val (fadd p st) / val 0x40C90FDB#32⌋ : ℚ)

/-- R83: after any sequence of STEPs, with SETPs of any operands between them (negative and huge steps included), the phase lies
in [0, 2π), and the step is finite. -/
def Obligations.PhaseStaysInRange : Prop :=
  ∀ (s : State) (cmds : List Instr), legalPhase s.phase = true → isFinite s.astep = true →
    (∀ i ∈ cmds, i = .step ∨ ∃ f b, i = .setp f b) →
      ∃ t, runCommands cmds s = some t ∧ legalPhase t.phase = true ∧ isFinite t.astep = true

/-- Fact (e) of R73: a step of magnitude 2^28 or more absorbs every legal phase, so the phase freezes. -/
def Obligations.HugeStepFreezesPhase : Prop :=
  ∀ p st : Word, legalPhase p = true → isFinite st = true → (2 : ℚ) ^ 28 ≤ |val st| →
    fadd p st = st ∧ advance p st = advance 0x00000000#32 st

/-- The quadrant fold never rounds (R75). -/
def Obligations.ReduceIsExact : Prop :=
  ∀ p : Word, legalPhase p = true →
    (val p < val 0x3FC90FDB#32 → reduce p = p) ∧
      (val 0x3FC90FDB#32 ≤ val p → val p < val 0x4096CBE4#32 → val (reduce p) = val 0x40490FDB#32 - val p) ∧
      (val 0x4096CBE4#32 ≤ val p → val (reduce p) = val p - val 0x40C90FDB#32)

/-- The sine of every legal phase is the polynomial of R76 at the folded phase x: four products, three quotients by 42, 20 and 6,
three differences from 1, each the rounding of the exact result (R74, R76), and +0 where x is zero. The polynomial is odd, bit for
bit: inverting the sign bit of x inverts the sign bit of y and changes no other (R76). -/
def Obligations.SineIsRoundedPolynomial : Prop :=
  (∀ p : Word, legalPhase p = true →
    let x := reduce p
    sin7 p = poly x ∧
      (val x = 0 → sin7 p = 0x00000000#32) ∧
      ∃ x2 a b c d e f g h : Word,
        RoundsTo (val x * val x) x2 ∧
          RoundsTo (val x2 / 42) a ∧
          RoundsTo (1 - val a) b ∧
          RoundsTo (val x2 * val b) c ∧
          RoundsTo (val c / 20) d ∧
          RoundsTo (1 - val d) e ∧
          RoundsTo (val x2 * val e) f ∧
          RoundsTo (val f / 6) g ∧
          RoundsTo (1 - val g) h ∧
          RoundsTo (val x * val h) (sin7 p)) ∧
    ∀ x : Word, poly (x ^^^ 0x80000000#32) = poly x ^^^ 0x80000000#32

/-- For every legal phase the sample is finite and strictly inside (-1, 1), and its scaled value is finite and below 16381 in
magnitude, so it fits a signed 16-bit integer (R79, R92). The spec's own bounds, 0.999843657 and 16380.44, are tighter. -/
def Obligations.SineFitsSample : Prop :=
  ∀ p : Word, legalPhase p = true →
    isFinite (sin7 p) = true ∧ |val (sin7 p)| < 1 ∧
      isFinite (fmul (sin7 p) 0x467FFC00#32) = true ∧ |val (fmul (sin7 p) 0x467FFC00#32)| < 16381

/-- The packer discards the fraction toward zero, saturates to 16 bits signed, and adds the bias, for every finite value whose scaled
value is finite (R91, R92; for the others the rules define no result and the model has a free value, log 7). -/
def Obligations.PackTruncatesTowardZero : Prop :=
  ∀ y : Word, isFinite y = true → isFinite (fmul y 0x467FFC00#32) = true →
    let v := val (fmul y 0x467FFC00#32)
    let i : ℤ := if 0 ≤ v then ⌊v⌋ else ⌈v⌉
    pack y = BitVec.ofInt 16 (max (-32768) (min 32767 i) + 0x8000)

/-- R100: the packed value of every legal phase lies in [0x4004, 0xBFFC]; a value in [-1, 1] packs into [0x4001, 0xBFFF], the ends
only for -1 and 1 themselves, which the polynomial never returns. -/
def Obligations.SamplesStayInRange : Prop :=
  (∀ p : Word, legalPhase p = true →
    0x4004 ≤ (pack (sin7 p)).toNat ∧ (pack (sin7 p)).toNat ≤ 0xBFFC ∧ |val (sin7 p)| ≠ 1) ∧
    ∀ y : Word, isFinite y = true → |val y| ≤ 1 →
      0x4001 ≤ (pack y).toNat ∧ (pack y).toNat ≤ 0xBFFF ∧
        (pack y = 0x4001#16 → val y = -1) ∧ (pack y = 0xBFFF#16 → val y = 1)

/-! ## Reset -/

/-- R141: the values reset loads, and the outputs they give. -/
def Obligations.ResetLoadsValues : Prop :=
  State.reset.astep = 0x3C696EB5#32 ∧ State.reset.phase = 0x00000000#32 ∧ State.reset.amp = 0x3F800000#32 ∧
    State.reset.fv = false ∧ State.reset.tout = false ∧ State.reset.snke = false ∧ State.reset.perr = false ∧
    State.reset.seq = .idle ∧ (outputs State.reset).cmdReady = true ∧ (outputs State.reset).rspValid = false ∧
    (outputs State.reset).snkValid = false ∧ (outputs State.reset).snkLast = false ∧
    (outputs State.reset).snkAbort = false

/-- The reset step is one full cycle per frame, and SETP 100.0, 1.0 gives the same (R36). -/
def Obligations.ResetStepIsOneCyclePerFrame : Prop :=
  fdiv 0x40C90FDB#32 0x43DC8000#32 = 0x3C696EB5#32 ∧
    exec (.setp 0x42C80000#32 0x3F800000#32) State.reset =
      .next { State.reset with rsp := some ⟨0x0#4, 0x3C696EB5#32⟩, seq := .resp }

/-- Reset from any state, a command in execution included: the reset state, no response, no abort mark, the sink keeps what it
has (R140, R141, R142), at both levels. What the environment's fields hold, and that a cycle with rst records no transfer, is the
model's choice (log 11); so are the values of k, w and TMR, which R36 leaves unspecified (log 5), and that of the command (log 6). -/
def Obligations.ResetFromAnyState : Prop :=
  ∀ s : State,
    (∀ rest, s.inputs = .rst :: rest →
      step s = .next { State.reset with pins := s.pins, inputs := rest, sinkLog := s.sinkLog }) ∧
      ∀ c : CycleIn, c.rst = true →
        cycle c s = .next { State.reset with pins := s.pins, inputs := s.inputs, sinkLog := s.sinkLog }

/-! ## Whole-machine rules -/

/-- The invariant of R21, R22 and R27 holds after reset; its clauses on the form of FB and on what k, w and TMR are outside a command
are the model's (logs 4, 5). -/
def Obligations.ResetMeetsInvariant : Prop := Inv State.reset

/-- Every step keeps the invariant: the phase stays legal, the step finite, FB holds a complete frame while FV = 1 and no value
while FV = 0 (R21, R22, R27, R83). The clauses on the form of FB and on k, w and TMR outside a command are the model's (logs 4, 5). -/
def Obligations.StepKeepsInvariant : Prop :=
  ∀ s t : State, Inv s → step s = .next t → Inv t

/-- The machine never stops: every step answers a next state (R123, R131, R137). -/
def Obligations.StepNeverStops : Prop :=
  ∀ s : State, Inv s → ∃ t, step s = .next t

/-- Every command that an idle block accepts in a state of a run has its effect: it is answered in that step, or it is an EMIT that
started a burst which has not ended (R56, R63, R64, R123; the burst that has not ended is the model's draw, log 3). -/
def Obligations.EveryCommandAnswers : Prop :=
  ∀ (i : Instr) (s : State) (word : CmdWord) (pins : Pins), Inv s → s.seq = .idle → decode word = .ok i →
    ∃ t, exec i (accept word pins s) = .next t ∧
      ((∃ (code : BitVec 4) (data : Word), t.rsp = some ⟨code, data⟩ ∧ code.toNat ≤ 6 ∧ t.seq = .resp) ∨
        (i = .emit ∧ s.fv = true ∧ pins.devReady = true ∧ (∃ k ticks o, pins.draw = .unfinished k ticks o) ∧
          t.rsp = none ∧ t.burst = true ∧ t.seq = .exec))

/-- The access matrix of R38, its writes: what each command leaves alone. -/
def Obligations.AccessMatrix : Prop :=
  ∀ (i : Instr) (s t : State), exec i s = .next t →
    (i ≠ .step → i ≠ .prod → t.phase = s.phase) ∧
      ((∀ f b, i ≠ .setp f b) → t.astep = s.astep ∧ t.amp = s.amp) ∧
      (i ≠ .prod → i ≠ .emit → t.fb = s.fb ∧ t.fv = s.fv) ∧
      (i ≠ .emit → (∀ m, i ≠ .clrf m) → t.tout = s.tout ∧ t.snke = s.snke) ∧
      ((∀ f b, i ≠ .setp f b) → (∀ m, i ≠ .clrf m) → t.perr = s.perr) ∧
      (i ≠ .emit → t.sinkLog = s.sinkLog ∧ t.burst = s.burst ∧ t.w = s.w ∧ t.tmr = s.tmr ∧ t.snkValid = s.snkValid) ∧
      t.k = s.k ∧ t.cmd = s.cmd ∧ t.snkAbort = s.snkAbort ∧ t.pins = s.pins ∧ t.inputs = s.inputs

/-- The sticky flags: each is set by exactly one event and cleared by CLRF with its mask bit only (R29, R131). -/
def Obligations.StickyFlags : Prop :=
  ∀ (i : Instr) (s t : State), exec i s = .next t →
    (t.tout = true ↔
      (i = .emit ∧ s.fv = true ∧ s.pins.devReady = true ∧ ∃ k, s.pins.draw = .timeout k) ∨
        (s.tout = true ∧ ∀ m, i = .clrf m → m.getLsbD 2 = false)) ∧
      (t.snke = true ↔
        (i = .emit ∧ s.fv = true ∧ s.pins.devReady = true ∧ ∃ k, s.pins.draw = .sinkErr k) ∨
          (s.snke = true ∧ ∀ m, i = .clrf m → m.getLsbD 3 = false)) ∧
      (t.perr = true ↔
        (∃ f b, i = .setp f b ∧ stepOf f = none) ∨
          (s.perr = true ∧ ∀ m, i = .clrf m → m.getLsbD 4 = false))

/-- A refusal changes no state, causes no sink activity and answers (status, 0); ILLEGAL is answered to exactly the commands that
R61 calls illegal (R61, R62, R64, R121). -/
def Obligations.RefusalsChangeNothing : Prop :=
  ∀ (i : Instr) (s t : State) (code : BitVec 4) (data : Word),
    exec i s = .next t → s.rsp = none → t.rsp = some ⟨code, data⟩ →
      (code = 0x1#4 ↔ i.wellFormed = false) ∧
        (code = 0x1#4 ∨ code = 0x2#4 ∨ code = 0x3#4 →
          data = 0#32 ∧ t = { s with rsp := some ⟨code, 0#32⟩, seq := .resp })

/-! ## The signal level -/

/-- The signal level realises the command level: from a state between two commands, any cycles without a reset that accept a
command and reach its response leave the state that the command level gives for some draw of the burst (R18, R95, R96). That k, w and
TMR return to 0 and that the latency is an input are the model's choices (logs 5, 12), and that READY in the answer of CLRF is the
level at acceptance is read from the spec by inference (log 10). -/
def Obligations.SignalRunRefinesCommand : Prop :=
  ∀ (s t : State) (c : CycleIn) (cs : List CycleIn), Inv s → s.seq = .idle →
    c.rst = false → c.cmdValid = true → (∀ x ∈ cs, x.rst = false) →
    runToResponse (c :: cs) s = .next t → t.seq = .resp →
      ∃ (draw : BurstDraw) (u : State),
        runWord c.word (accept c.word ⟨c.devReady, draw, s.pins.rspReady⟩ s) = .next u ∧
          { t with pins := u.pins, snkAbort := false } = u

/-- Every outcome of R95 happens: for each of the 1 + 882 + 882 there are cycles whose run leaves the state the command level gives
for it (R95, R96; logs 5, 12). -/
def Obligations.EveryOutcomeHasARun : Prop :=
  ∀ (s : State) (c : CycleIn) (draw : BurstDraw), Inv s → s.seq = .idle → s.fv = true →
    c.rst = false → c.cmdValid = true → c.cmdOp = 0x4#4 → c.devReady = true →
    (∀ k ticks o, draw ≠ .unfinished k ticks o) →
      ∃ (cs : List CycleIn) (t u : State), (∀ x ∈ cs, x.rst = false) ∧
        runToResponse (c :: cs) s = .next t ∧
          runWord c.word (accept c.word ⟨true, draw, s.pins.rspReady⟩ s) = .next u ∧
          { t with pins := u.pins, snkAbort := false } = u

/-- A burst ends by the 4410th pulse of fs_ce after its start, whatever the sink does (R49, R96, R135). -/
def Obligations.BurstEndsByPulse4410 : Prop :=
  ∀ (s : State) (cs : List CycleIn), s.seq = .exec → s.burst = true → completeFrame s.fb →
    s.tmr.toNat < 4410 → (∀ x ∈ cs, x.rst = false) →
    4410 ≤ s.tmr.toNat + (cs.filter (fun x => x.fsCe)).length →
      ∃ t, runToResponse cs s = .next t ∧ t.burst = false ∧ t.rsp.isSome = true

/-- With fs_ce stopped and a sink that takes nothing and reports nothing, a burst never ends and no response comes (R148). That FV
keeps its value in the middle of the burst is the model's choice (log 18). -/
def Obligations.StoppedClockHangsBurst : Prop :=
  ∀ (s : State) (cs : List CycleIn), s.seq = .exec → s.burst = true →
    (∀ x ∈ cs, x.rst = false ∧ x.fsCe = false ∧ x.snkReady = false ∧ x.snkErr = false) →
      ∃ t, runToResponse cs s = .next t ∧ t.burst = true ∧ t.seq = .exec ∧ t.rsp = s.rsp ∧ t.w = s.w ∧
        t.sinkLog = s.sinkLog ∧ t.fv = s.fv

/-- The ties of one cycle of a burst: snk_err wins over all; the transfer of word 881 wins over the timeout; the timeout wins over
the transfer of any other word (R96, R50). -/
def Obligations.BurstTies : Prop :=
  ∀ (s : State) (c : CycleIn), c.rst = false → s.seq = .exec → s.burst = true →
    (c.snkErr = true → ∃ t, cycle c s = .next t ∧
      t.rsp = some ⟨0x5#4, BitVec.ofNat 32 s.w.val⟩ ∧ t.sinkLog = s.sinkLog ++ [.abort] ∧ t.snke = true ∧
        t.tout = s.tout ∧ t.fv = false ∧ t.burst = false ∧ t.snkValid = false ∧ t.snkAbort = true) ∧
    (∀ v, c.snkErr = false → s.snkValid = true → c.snkReady = true → s.w.val = 881 → s.fb.readWord 881 = some v →
      ∃ t, cycle c s = .next t ∧
        t.rsp = some ⟨0x0#4, 882#32⟩ ∧ t.sinkLog = s.sinkLog ++ [.word v true true] ∧ t.tout = s.tout ∧ t.snke = s.snke ∧
          t.fv = false ∧ t.burst = false ∧ t.snkValid = false ∧ t.snkAbort = false) ∧
    (c.snkErr = false → ¬(s.snkValid = true ∧ c.snkReady = true ∧ s.w.val = 881) → c.fsCe = true → s.tmr = 4409#13 →
      ∃ t, cycle c s = .next t ∧
        t.rsp = some ⟨0x4#4, BitVec.ofNat 32 s.w.val⟩ ∧ t.sinkLog = s.sinkLog ++ [.abort] ∧ t.tout = true ∧
          t.snke = s.snke ∧ t.fv = false ∧ t.burst = false ∧ t.snkValid = false ∧ t.snkAbort = true)

/-- While a word is on offer the port shows FB[w], channel w[0], and last exactly at w = 881 (R45). While the sink does not take it,
the offer is held unchanged; where it takes it, the word received is the one on the port, and after word w < 881 the burst goes on
with word w+1 (R46, R47). -/
def Obligations.OfferHeldUntilTransfer : Prop :=
  ∀ (s : State) (c : CycleIn), c.rst = false → s.seq = .exec → s.burst = true → s.snkValid = true →
    ((outputs s).snkValid = true ∧ (outputs s).snkData = s.fb.readWord s.w.val ∧
      (outputs s).snkChan = some (decide (s.w.val % 2 = 1)) ∧ (outputs s).snkLast = decide (s.w.val = 881)) ∧
    (c.snkReady = false → c.snkErr = false → ¬(c.fsCe = true ∧ s.tmr = 4409#13) →
      ∃ t, cycle c s = .next t ∧ t.w = s.w ∧ t.sinkLog = s.sinkLog ∧
        (outputs t).snkValid = true ∧ (outputs t).snkData = (outputs s).snkData ∧
        (outputs t).snkChan = (outputs s).snkChan ∧ (outputs t).snkLast = (outputs s).snkLast) ∧
    ∀ v, s.fb.readWord s.w.val = some v → c.snkReady = true → c.snkErr = false →
      (s.w.val = 881 ∨ ¬(c.fsCe = true ∧ s.tmr = 4409#13)) →
        ∃ t chan, cycle c s = .next t ∧ (outputs s).snkData = some v ∧ (outputs s).snkChan = some chan ∧
          t.sinkLog = s.sinkLog ++ [.word v chan (outputs s).snkLast] ∧
          (s.w.val < 881 → t.burst = true ∧ t.seq = .exec ∧ t.w.val = s.w.val + 1 ∧ t.fb = s.fb)

/-- snk_abort is a pulse of one cycle, and nothing is offered in it (R48). -/
def Obligations.AbortPulseLastsOneCycle : Prop :=
  ∀ (s t : State) (c : CycleIn), cycle c s = .next t → t.snkAbort = true →
    t.snkValid = false ∧ ∀ (c' : CycleIn) (u : State), cycle c' t = .next u → u.snkAbort = false

/-- The response is held until the host takes it; then the block is ready for the next command (R63, R149). While it executes or
holds a response, cmd_ready is 0 and a cycle takes no command, whatever the host offers: the command in execution stays (R56). -/
def Obligations.ResponseHeldUntilTaken : Prop :=
  ∀ (s : State) (c : CycleIn), c.rst = false →
    (s.seq = .resp → c.rspReady = false →
      cycle c s = .next { s with snkAbort := false } ∧
        (outputs { s with snkAbort := false }).rspValid = true ∧
        (outputs { s with snkAbort := false }).rspStatus = s.rsp.map (·.status) ∧
        (outputs { s with snkAbort := false }).rspData = s.rsp.map (·.data)) ∧
      (s.seq = .resp → c.rspReady = true → cycle c s = .next { s with snkAbort := false, seq := .idle }) ∧
      (s.seq ≠ .idle → (outputs s).cmdReady = false ∧ ∀ t, cycle c s = .next t → t.cmd = s.cmd ∧ t.inputs = s.inputs)

/-- Every cycle keeps the phase legal, the step finite, FB canonical and the count of a burst below its bound, in the middle of a
command too (R21, R22, R96; the form of FB is the model's, log 4). -/
def Obligations.CycleKeepsRegistersLegal : Prop :=
  ∀ (s t : State) (c : CycleIn),
    legalPhase s.phase = true → isFinite s.astep = true → s.fb.wf → s.tmr.toNat < 4410 → cycle c s = .next t →
      legalPhase t.phase = true ∧ isFinite t.astep = true ∧ t.fb.wf ∧ t.tmr.toNat < 4410
end

