-- ==== Sys2Proof/Laws/State.lean ====
section
/-! SUPPORT. One lemma per field per update of State, all by definition, so that no proof unfolds an update. -/

namespace Sys2Proof.Machine

variable (s : State)

/-! ### respond -/

@[simp] theorem respond_phase (st : BitVec 4) (d : Word) : (respond st d s).phase = s.phase := rfl
@[simp] theorem respond_astep (st : BitVec 4) (d : Word) : (respond st d s).astep = s.astep := rfl
@[simp] theorem respond_amp (st : BitVec 4) (d : Word) : (respond st d s).amp = s.amp := rfl
@[simp] theorem respond_fb (st : BitVec 4) (d : Word) : (respond st d s).fb = s.fb := rfl
@[simp] theorem respond_fv (st : BitVec 4) (d : Word) : (respond st d s).fv = s.fv := rfl
@[simp] theorem respond_tout (st : BitVec 4) (d : Word) : (respond st d s).tout = s.tout := rfl
@[simp] theorem respond_snke (st : BitVec 4) (d : Word) : (respond st d s).snke = s.snke := rfl
@[simp] theorem respond_perr (st : BitVec 4) (d : Word) : (respond st d s).perr = s.perr := rfl
@[simp] theorem respond_seq (st : BitVec 4) (d : Word) : (respond st d s).seq = .resp := rfl
@[simp] theorem respond_k (st : BitVec 4) (d : Word) : (respond st d s).k = s.k := rfl
@[simp] theorem respond_w (st : BitVec 4) (d : Word) : (respond st d s).w = s.w := rfl
@[simp] theorem respond_tmr (st : BitVec 4) (d : Word) : (respond st d s).tmr = s.tmr := rfl
@[simp] theorem respond_cmd (st : BitVec 4) (d : Word) : (respond st d s).cmd = s.cmd := rfl
@[simp] theorem respond_burst (st : BitVec 4) (d : Word) : (respond st d s).burst = s.burst := rfl
@[simp] theorem respond_snkValid (st : BitVec 4) (d : Word) : (respond st d s).snkValid = s.snkValid := rfl
@[simp] theorem respond_snkAbort (st : BitVec 4) (d : Word) : (respond st d s).snkAbort = s.snkAbort := rfl
@[simp] theorem respond_rsp (st : BitVec 4) (d : Word) : (respond st d s).rsp = some ⟨st, d⟩ := rfl
@[simp] theorem respond_pins (st : BitVec 4) (d : Word) : (respond st d s).pins = s.pins := rfl
@[simp] theorem respond_inputs (st : BitVec 4) (d : Word) : (respond st d s).inputs = s.inputs := rfl
@[simp] theorem respond_sinkLog (st : BitVec 4) (d : Word) : (respond st d s).sinkLog = s.sinkLog := rfl

/-! ### refuse -/

@[simp] theorem refuse_phase (st : BitVec 4) : (refuse st s).phase = s.phase := rfl
@[simp] theorem refuse_astep (st : BitVec 4) : (refuse st s).astep = s.astep := rfl
@[simp] theorem refuse_amp (st : BitVec 4) : (refuse st s).amp = s.amp := rfl
@[simp] theorem refuse_fb (st : BitVec 4) : (refuse st s).fb = s.fb := rfl
@[simp] theorem refuse_fv (st : BitVec 4) : (refuse st s).fv = s.fv := rfl
@[simp] theorem refuse_tout (st : BitVec 4) : (refuse st s).tout = s.tout := rfl
@[simp] theorem refuse_snke (st : BitVec 4) : (refuse st s).snke = s.snke := rfl
@[simp] theorem refuse_perr (st : BitVec 4) : (refuse st s).perr = s.perr := rfl
@[simp] theorem refuse_seq (st : BitVec 4) : (refuse st s).seq = .resp := rfl
@[simp] theorem refuse_k (st : BitVec 4) : (refuse st s).k = s.k := rfl
@[simp] theorem refuse_w (st : BitVec 4) : (refuse st s).w = s.w := rfl
@[simp] theorem refuse_tmr (st : BitVec 4) : (refuse st s).tmr = s.tmr := rfl
@[simp] theorem refuse_cmd (st : BitVec 4) : (refuse st s).cmd = s.cmd := rfl
@[simp] theorem refuse_burst (st : BitVec 4) : (refuse st s).burst = s.burst := rfl
@[simp] theorem refuse_snkValid (st : BitVec 4) : (refuse st s).snkValid = s.snkValid := rfl
@[simp] theorem refuse_snkAbort (st : BitVec 4) : (refuse st s).snkAbort = s.snkAbort := rfl
@[simp] theorem refuse_rsp (st : BitVec 4) : (refuse st s).rsp = some ⟨st, 0#32⟩ := rfl
@[simp] theorem refuse_pins (st : BitVec 4) : (refuse st s).pins = s.pins := rfl
@[simp] theorem refuse_inputs (st : BitVec 4) : (refuse st s).inputs = s.inputs := rfl
@[simp] theorem refuse_sinkLog (st : BitVec 4) : (refuse st s).sinkLog = s.sinkLog := rfl

/-! ### dropFrame -/

@[simp] theorem dropFrame_phase : (dropFrame s).phase = s.phase := rfl
@[simp] theorem dropFrame_astep : (dropFrame s).astep = s.astep := rfl
@[simp] theorem dropFrame_amp : (dropFrame s).amp = s.amp := rfl
@[simp] theorem dropFrame_fb : (dropFrame s).fb = [] := rfl
@[simp] theorem dropFrame_fv : (dropFrame s).fv = false := rfl
@[simp] theorem dropFrame_tout : (dropFrame s).tout = s.tout := rfl
@[simp] theorem dropFrame_snke : (dropFrame s).snke = s.snke := rfl
@[simp] theorem dropFrame_perr : (dropFrame s).perr = s.perr := rfl
@[simp] theorem dropFrame_seq : (dropFrame s).seq = s.seq := rfl
@[simp] theorem dropFrame_k : (dropFrame s).k = s.k := rfl
@[simp] theorem dropFrame_w : (dropFrame s).w = s.w := rfl
@[simp] theorem dropFrame_tmr : (dropFrame s).tmr = s.tmr := rfl
@[simp] theorem dropFrame_cmd : (dropFrame s).cmd = s.cmd := rfl
@[simp] theorem dropFrame_burst : (dropFrame s).burst = s.burst := rfl
@[simp] theorem dropFrame_snkValid : (dropFrame s).snkValid = s.snkValid := rfl
@[simp] theorem dropFrame_snkAbort : (dropFrame s).snkAbort = s.snkAbort := rfl
@[simp] theorem dropFrame_rsp : (dropFrame s).rsp = s.rsp := rfl
@[simp] theorem dropFrame_pins : (dropFrame s).pins = s.pins := rfl
@[simp] theorem dropFrame_inputs : (dropFrame s).inputs = s.inputs := rfl
@[simp] theorem dropFrame_sinkLog : (dropFrame s).sinkLog = s.sinkLog := rfl

/-! ### sinkPut -/

@[simp] theorem sinkPut_phase (es : List SinkEvent) : (sinkPut es s).phase = s.phase := rfl
@[simp] theorem sinkPut_astep (es : List SinkEvent) : (sinkPut es s).astep = s.astep := rfl
@[simp] theorem sinkPut_amp (es : List SinkEvent) : (sinkPut es s).amp = s.amp := rfl
@[simp] theorem sinkPut_fb (es : List SinkEvent) : (sinkPut es s).fb = s.fb := rfl
@[simp] theorem sinkPut_fv (es : List SinkEvent) : (sinkPut es s).fv = s.fv := rfl
@[simp] theorem sinkPut_tout (es : List SinkEvent) : (sinkPut es s).tout = s.tout := rfl
@[simp] theorem sinkPut_snke (es : List SinkEvent) : (sinkPut es s).snke = s.snke := rfl
@[simp] theorem sinkPut_perr (es : List SinkEvent) : (sinkPut es s).perr = s.perr := rfl
@[simp] theorem sinkPut_seq (es : List SinkEvent) : (sinkPut es s).seq = s.seq := rfl
@[simp] theorem sinkPut_k (es : List SinkEvent) : (sinkPut es s).k = s.k := rfl
@[simp] theorem sinkPut_w (es : List SinkEvent) : (sinkPut es s).w = s.w := rfl
@[simp] theorem sinkPut_tmr (es : List SinkEvent) : (sinkPut es s).tmr = s.tmr := rfl
@[simp] theorem sinkPut_cmd (es : List SinkEvent) : (sinkPut es s).cmd = s.cmd := rfl
@[simp] theorem sinkPut_burst (es : List SinkEvent) : (sinkPut es s).burst = s.burst := rfl
@[simp] theorem sinkPut_snkValid (es : List SinkEvent) : (sinkPut es s).snkValid = s.snkValid := rfl
@[simp] theorem sinkPut_snkAbort (es : List SinkEvent) : (sinkPut es s).snkAbort = s.snkAbort := rfl
@[simp] theorem sinkPut_rsp (es : List SinkEvent) : (sinkPut es s).rsp = s.rsp := rfl
@[simp] theorem sinkPut_pins (es : List SinkEvent) : (sinkPut es s).pins = s.pins := rfl
@[simp] theorem sinkPut_inputs (es : List SinkEvent) : (sinkPut es s).inputs = s.inputs := rfl
@[simp] theorem sinkPut_sinkLog (es : List SinkEvent) : (sinkPut es s).sinkLog = s.sinkLog ++ es := rfl

/-! ### partialEnd -/

@[simp] theorem partialEnd_phase : (partialEnd s).phase = s.phase := rfl
@[simp] theorem partialEnd_astep : (partialEnd s).astep = s.astep := rfl
@[simp] theorem partialEnd_amp : (partialEnd s).amp = s.amp := rfl
@[simp] theorem partialEnd_fb : (partialEnd s).fb = s.fb := rfl
@[simp] theorem partialEnd_fv : (partialEnd s).fv = s.fv := rfl
@[simp] theorem partialEnd_tout : (partialEnd s).tout = s.tout := rfl
@[simp] theorem partialEnd_snke : (partialEnd s).snke = s.snke := rfl
@[simp] theorem partialEnd_perr : (partialEnd s).perr = true := rfl
@[simp] theorem partialEnd_seq : (partialEnd s).seq = .resp := rfl
@[simp] theorem partialEnd_k : (partialEnd s).k = s.k := rfl
@[simp] theorem partialEnd_w : (partialEnd s).w = s.w := rfl
@[simp] theorem partialEnd_tmr : (partialEnd s).tmr = s.tmr := rfl
@[simp] theorem partialEnd_cmd : (partialEnd s).cmd = s.cmd := rfl
@[simp] theorem partialEnd_burst : (partialEnd s).burst = s.burst := rfl
@[simp] theorem partialEnd_snkValid : (partialEnd s).snkValid = s.snkValid := rfl
@[simp] theorem partialEnd_snkAbort : (partialEnd s).snkAbort = s.snkAbort := rfl
@[simp] theorem partialEnd_rsp : (partialEnd s).rsp = some ⟨codeBADPARAM, s.astep⟩ := rfl
@[simp] theorem partialEnd_pins : (partialEnd s).pins = s.pins := rfl
@[simp] theorem partialEnd_inputs : (partialEnd s).inputs = s.inputs := rfl
@[simp] theorem partialEnd_sinkLog : (partialEnd s).sinkLog = s.sinkLog := rfl

/-! ### clearFlags -/

@[simp] theorem clearFlags_phase (mask : Word) : (clearFlags mask s).phase = s.phase := rfl
@[simp] theorem clearFlags_astep (mask : Word) : (clearFlags mask s).astep = s.astep := rfl
@[simp] theorem clearFlags_amp (mask : Word) : (clearFlags mask s).amp = s.amp := rfl
@[simp] theorem clearFlags_fb (mask : Word) : (clearFlags mask s).fb = s.fb := rfl
@[simp] theorem clearFlags_fv (mask : Word) : (clearFlags mask s).fv = s.fv := rfl
@[simp] theorem clearFlags_tout (mask : Word) : (clearFlags mask s).tout = (s.tout && !mask.getLsbD 2) := rfl
@[simp] theorem clearFlags_snke (mask : Word) : (clearFlags mask s).snke = (s.snke && !mask.getLsbD 3) := rfl
@[simp] theorem clearFlags_perr (mask : Word) : (clearFlags mask s).perr = (s.perr && !mask.getLsbD 4) := rfl
@[simp] theorem clearFlags_seq (mask : Word) : (clearFlags mask s).seq = s.seq := rfl
@[simp] theorem clearFlags_k (mask : Word) : (clearFlags mask s).k = s.k := rfl
@[simp] theorem clearFlags_w (mask : Word) : (clearFlags mask s).w = s.w := rfl
@[simp] theorem clearFlags_tmr (mask : Word) : (clearFlags mask s).tmr = s.tmr := rfl
@[simp] theorem clearFlags_cmd (mask : Word) : (clearFlags mask s).cmd = s.cmd := rfl
@[simp] theorem clearFlags_burst (mask : Word) : (clearFlags mask s).burst = s.burst := rfl
@[simp] theorem clearFlags_snkValid (mask : Word) : (clearFlags mask s).snkValid = s.snkValid := rfl
@[simp] theorem clearFlags_snkAbort (mask : Word) : (clearFlags mask s).snkAbort = s.snkAbort := rfl
@[simp] theorem clearFlags_rsp (mask : Word) : (clearFlags mask s).rsp = s.rsp := rfl
@[simp] theorem clearFlags_pins (mask : Word) : (clearFlags mask s).pins = s.pins := rfl
@[simp] theorem clearFlags_inputs (mask : Word) : (clearFlags mask s).inputs = s.inputs := rfl
@[simp] theorem clearFlags_sinkLog (mask : Word) : (clearFlags mask s).sinkLog = s.sinkLog := rfl

/-! ### accept -/

@[simp] theorem accept_phase (word : CmdWord) (pins : Pins) : (accept word pins s).phase = s.phase := rfl
@[simp] theorem accept_astep (word : CmdWord) (pins : Pins) : (accept word pins s).astep = s.astep := rfl
@[simp] theorem accept_amp (word : CmdWord) (pins : Pins) : (accept word pins s).amp = s.amp := rfl
@[simp] theorem accept_fb (word : CmdWord) (pins : Pins) : (accept word pins s).fb = s.fb := rfl
@[simp] theorem accept_fv (word : CmdWord) (pins : Pins) : (accept word pins s).fv = s.fv := rfl
@[simp] theorem accept_tout (word : CmdWord) (pins : Pins) : (accept word pins s).tout = s.tout := rfl
@[simp] theorem accept_snke (word : CmdWord) (pins : Pins) : (accept word pins s).snke = s.snke := rfl
@[simp] theorem accept_perr (word : CmdWord) (pins : Pins) : (accept word pins s).perr = s.perr := rfl
@[simp] theorem accept_seq (word : CmdWord) (pins : Pins) : (accept word pins s).seq = .exec := rfl
@[simp] theorem accept_k (word : CmdWord) (pins : Pins) : (accept word pins s).k = s.k := rfl
@[simp] theorem accept_w (word : CmdWord) (pins : Pins) : (accept word pins s).w = s.w := rfl
@[simp] theorem accept_tmr (word : CmdWord) (pins : Pins) : (accept word pins s).tmr = s.tmr := rfl
@[simp] theorem accept_cmd (word : CmdWord) (pins : Pins) : (accept word pins s).cmd = word := rfl
@[simp] theorem accept_burst (word : CmdWord) (pins : Pins) : (accept word pins s).burst = s.burst := rfl
@[simp] theorem accept_snkValid (word : CmdWord) (pins : Pins) : (accept word pins s).snkValid = s.snkValid := rfl
@[simp] theorem accept_snkAbort (word : CmdWord) (pins : Pins) : (accept word pins s).snkAbort = false := rfl
@[simp] theorem accept_rsp (word : CmdWord) (pins : Pins) : (accept word pins s).rsp = none := rfl
@[simp] theorem accept_pins (word : CmdWord) (pins : Pins) : (accept word pins s).pins = pins := rfl
@[simp] theorem accept_inputs (word : CmdWord) (pins : Pins) : (accept word pins s).inputs = s.inputs := rfl
@[simp] theorem accept_sinkLog (word : CmdWord) (pins : Pins) : (accept word pins s).sinkLog = s.sinkLog := rfl

/-! ### applyReset -/

@[simp] theorem applyReset_phase : (applyReset s).phase = State.reset.phase := rfl
@[simp] theorem applyReset_astep : (applyReset s).astep = State.reset.astep := rfl
@[simp] theorem applyReset_amp : (applyReset s).amp = State.reset.amp := rfl
@[simp] theorem applyReset_fb : (applyReset s).fb = State.reset.fb := rfl
@[simp] theorem applyReset_fv : (applyReset s).fv = State.reset.fv := rfl
@[simp] theorem applyReset_tout : (applyReset s).tout = State.reset.tout := rfl
@[simp] theorem applyReset_snke : (applyReset s).snke = State.reset.snke := rfl
@[simp] theorem applyReset_perr : (applyReset s).perr = State.reset.perr := rfl
@[simp] theorem applyReset_seq : (applyReset s).seq = State.reset.seq := rfl
@[simp] theorem applyReset_k : (applyReset s).k = State.reset.k := rfl
@[simp] theorem applyReset_w : (applyReset s).w = State.reset.w := rfl
@[simp] theorem applyReset_tmr : (applyReset s).tmr = State.reset.tmr := rfl
@[simp] theorem applyReset_cmd : (applyReset s).cmd = State.reset.cmd := rfl
@[simp] theorem applyReset_burst : (applyReset s).burst = State.reset.burst := rfl
@[simp] theorem applyReset_snkValid : (applyReset s).snkValid = State.reset.snkValid := rfl
@[simp] theorem applyReset_snkAbort : (applyReset s).snkAbort = State.reset.snkAbort := rfl
@[simp] theorem applyReset_rsp : (applyReset s).rsp = State.reset.rsp := rfl
@[simp] theorem applyReset_pins : (applyReset s).pins = s.pins := rfl
@[simp] theorem applyReset_inputs : (applyReset s).inputs = s.inputs := rfl
@[simp] theorem applyReset_sinkLog : (applyReset s).sinkLog = s.sinkLog := rfl

/-! ### offerWord -/

@[simp] theorem offerWord_phase (word : CmdWord) : (offerWord word s).phase = s.phase := rfl
@[simp] theorem offerWord_astep (word : CmdWord) : (offerWord word s).astep = s.astep := rfl
@[simp] theorem offerWord_amp (word : CmdWord) : (offerWord word s).amp = s.amp := rfl
@[simp] theorem offerWord_fb (word : CmdWord) : (offerWord word s).fb = s.fb := rfl
@[simp] theorem offerWord_fv (word : CmdWord) : (offerWord word s).fv = s.fv := rfl
@[simp] theorem offerWord_tout (word : CmdWord) : (offerWord word s).tout = s.tout := rfl
@[simp] theorem offerWord_snke (word : CmdWord) : (offerWord word s).snke = s.snke := rfl
@[simp] theorem offerWord_perr (word : CmdWord) : (offerWord word s).perr = s.perr := rfl
@[simp] theorem offerWord_seq (word : CmdWord) : (offerWord word s).seq = .idle := rfl
@[simp] theorem offerWord_k (word : CmdWord) : (offerWord word s).k = s.k := rfl
@[simp] theorem offerWord_w (word : CmdWord) : (offerWord word s).w = s.w := rfl
@[simp] theorem offerWord_tmr (word : CmdWord) : (offerWord word s).tmr = s.tmr := rfl
@[simp] theorem offerWord_cmd (word : CmdWord) : (offerWord word s).cmd = s.cmd := rfl
@[simp] theorem offerWord_burst (word : CmdWord) : (offerWord word s).burst = s.burst := rfl
@[simp] theorem offerWord_snkValid (word : CmdWord) : (offerWord word s).snkValid = s.snkValid := rfl
@[simp] theorem offerWord_snkAbort (word : CmdWord) : (offerWord word s).snkAbort = s.snkAbort := rfl
@[simp] theorem offerWord_rsp (word : CmdWord) : (offerWord word s).rsp = s.rsp := rfl
@[simp] theorem offerWord_pins (word : CmdWord) : (offerWord word s).pins = s.pins := rfl
@[simp] theorem offerWord_inputs (word : CmdWord) : (offerWord word s).inputs = .command word s.pins :: s.inputs := rfl
@[simp] theorem offerWord_sinkLog (word : CmdWord) : (offerWord word s).sinkLog = s.sinkLog := rfl

/-! ### fail .timeout -/

@[simp] theorem fail_timeout_phase (n : Nat) : (fail .timeout n s).phase = s.phase := rfl
@[simp] theorem fail_timeout_astep (n : Nat) : (fail .timeout n s).astep = s.astep := rfl
@[simp] theorem fail_timeout_amp (n : Nat) : (fail .timeout n s).amp = s.amp := rfl
@[simp] theorem fail_timeout_fb (n : Nat) : (fail .timeout n s).fb = [] := rfl
@[simp] theorem fail_timeout_fv (n : Nat) : (fail .timeout n s).fv = false := rfl
@[simp] theorem fail_timeout_tout (n : Nat) : (fail .timeout n s).tout = true := rfl
@[simp] theorem fail_timeout_snke (n : Nat) : (fail .timeout n s).snke = s.snke := rfl
@[simp] theorem fail_timeout_perr (n : Nat) : (fail .timeout n s).perr = s.perr := rfl
@[simp] theorem fail_timeout_seq (n : Nat) : (fail .timeout n s).seq = .resp := rfl
@[simp] theorem fail_timeout_k (n : Nat) : (fail .timeout n s).k = s.k := rfl
@[simp] theorem fail_timeout_w (n : Nat) : (fail .timeout n s).w = s.w := rfl
@[simp] theorem fail_timeout_tmr (n : Nat) : (fail .timeout n s).tmr = s.tmr := rfl
@[simp] theorem fail_timeout_cmd (n : Nat) : (fail .timeout n s).cmd = s.cmd := rfl
@[simp] theorem fail_timeout_burst (n : Nat) : (fail .timeout n s).burst = s.burst := rfl
@[simp] theorem fail_timeout_snkValid (n : Nat) : (fail .timeout n s).snkValid = s.snkValid := rfl
@[simp] theorem fail_timeout_snkAbort (n : Nat) : (fail .timeout n s).snkAbort = s.snkAbort := rfl
@[simp] theorem fail_timeout_rsp (n : Nat) : (fail .timeout n s).rsp = some ⟨codeTIMEOUT, BitVec.ofNat 32 n⟩ := rfl
@[simp] theorem fail_timeout_pins (n : Nat) : (fail .timeout n s).pins = s.pins := rfl
@[simp] theorem fail_timeout_inputs (n : Nat) : (fail .timeout n s).inputs = s.inputs := rfl
@[simp] theorem fail_timeout_sinkLog (n : Nat) : (fail .timeout n s).sinkLog = s.sinkLog ++ [.abort] := rfl

/-! ### fail .sinkErr -/

@[simp] theorem fail_sinkErr_phase (n : Nat) : (fail .sinkErr n s).phase = s.phase := rfl
@[simp] theorem fail_sinkErr_astep (n : Nat) : (fail .sinkErr n s).astep = s.astep := rfl
@[simp] theorem fail_sinkErr_amp (n : Nat) : (fail .sinkErr n s).amp = s.amp := rfl
@[simp] theorem fail_sinkErr_fb (n : Nat) : (fail .sinkErr n s).fb = [] := rfl
@[simp] theorem fail_sinkErr_fv (n : Nat) : (fail .sinkErr n s).fv = false := rfl
@[simp] theorem fail_sinkErr_tout (n : Nat) : (fail .sinkErr n s).tout = s.tout := rfl
@[simp] theorem fail_sinkErr_snke (n : Nat) : (fail .sinkErr n s).snke = true := rfl
@[simp] theorem fail_sinkErr_perr (n : Nat) : (fail .sinkErr n s).perr = s.perr := rfl
@[simp] theorem fail_sinkErr_seq (n : Nat) : (fail .sinkErr n s).seq = .resp := rfl
@[simp] theorem fail_sinkErr_k (n : Nat) : (fail .sinkErr n s).k = s.k := rfl
@[simp] theorem fail_sinkErr_w (n : Nat) : (fail .sinkErr n s).w = s.w := rfl
@[simp] theorem fail_sinkErr_tmr (n : Nat) : (fail .sinkErr n s).tmr = s.tmr := rfl
@[simp] theorem fail_sinkErr_cmd (n : Nat) : (fail .sinkErr n s).cmd = s.cmd := rfl
@[simp] theorem fail_sinkErr_burst (n : Nat) : (fail .sinkErr n s).burst = s.burst := rfl
@[simp] theorem fail_sinkErr_snkValid (n : Nat) : (fail .sinkErr n s).snkValid = s.snkValid := rfl
@[simp] theorem fail_sinkErr_snkAbort (n : Nat) : (fail .sinkErr n s).snkAbort = s.snkAbort := rfl
@[simp] theorem fail_sinkErr_rsp (n : Nat) : (fail .sinkErr n s).rsp = some ⟨codeSINKERR, BitVec.ofNat 32 n⟩ := rfl
@[simp] theorem fail_sinkErr_pins (n : Nat) : (fail .sinkErr n s).pins = s.pins := rfl
@[simp] theorem fail_sinkErr_inputs (n : Nat) : (fail .sinkErr n s).inputs = s.inputs := rfl
@[simp] theorem fail_sinkErr_sinkLog (n : Nat) : (fail .sinkErr n s).sinkLog = s.sinkLog ++ [.abort] := rfl

/-! ### settle: only SEQ may change -/

@[simp] theorem settle_phase : (settle s).phase = s.phase := by unfold settle; (repeat' split) <;> rfl
@[simp] theorem settle_astep : (settle s).astep = s.astep := by unfold settle; (repeat' split) <;> rfl
@[simp] theorem settle_amp : (settle s).amp = s.amp := by unfold settle; (repeat' split) <;> rfl
@[simp] theorem settle_fb : (settle s).fb = s.fb := by unfold settle; (repeat' split) <;> rfl
@[simp] theorem settle_fv : (settle s).fv = s.fv := by unfold settle; (repeat' split) <;> rfl
@[simp] theorem settle_tout : (settle s).tout = s.tout := by unfold settle; (repeat' split) <;> rfl
@[simp] theorem settle_snke : (settle s).snke = s.snke := by unfold settle; (repeat' split) <;> rfl
@[simp] theorem settle_perr : (settle s).perr = s.perr := by unfold settle; (repeat' split) <;> rfl
@[simp] theorem settle_k : (settle s).k = s.k := by unfold settle; (repeat' split) <;> rfl
@[simp] theorem settle_w : (settle s).w = s.w := by unfold settle; (repeat' split) <;> rfl
@[simp] theorem settle_tmr : (settle s).tmr = s.tmr := by unfold settle; (repeat' split) <;> rfl
@[simp] theorem settle_cmd : (settle s).cmd = s.cmd := by unfold settle; (repeat' split) <;> rfl
@[simp] theorem settle_burst : (settle s).burst = s.burst := by unfold settle; (repeat' split) <;> rfl
@[simp] theorem settle_snkValid : (settle s).snkValid = s.snkValid := by unfold settle; (repeat' split) <;> rfl
@[simp] theorem settle_snkAbort : (settle s).snkAbort = s.snkAbort := by unfold settle; (repeat' split) <;> rfl
@[simp] theorem settle_rsp : (settle s).rsp = s.rsp := by unfold settle; (repeat' split) <;> rfl
@[simp] theorem settle_pins : (settle s).pins = s.pins := by unfold settle; (repeat' split) <;> rfl
@[simp] theorem settle_inputs : (settle s).inputs = s.inputs := by unfold settle; (repeat' split) <;> rfl
@[simp] theorem settle_sinkLog : (settle s).sinkLog = s.sinkLog := by unfold settle; (repeat' split) <;> rfl

theorem settle_seq : (settle s).seq = if s.seq = .resp ∧ s.pins.rspReady = true then .idle else s.seq := by
  unfold settle
  cases hs : s.seq <;> cases hp : s.pins.rspReady <;> simp [hs]

end Sys2Proof.Machine
end

