-- ==== Sys2Proof/Laws/Float.lean ====
section
/-! SUPPORT. The laws of the binary32 primitives: patterns as numbers, rounding to an integer, rounding to a pattern. The
pattern of a word less its sign bit is written `body`. -/

namespace Sys2Proof.Machine

/-! ### Patterns as numbers -/

/-- A pattern less its sign bit, as a number. -/
def body (u : Word) : Nat := u.toNat % 2 ^ 31

theorem expField_eq (u : Word) : expField u = body u / 2 ^ 23 := by
  unfold expField body
  rw [BitVec.extractLsb'_toNat, Nat.shiftRight_eq_div_pow]
  omega

theorem fracField_eq (u : Word) : fracField u = body u % 2 ^ 23 := by
  unfold fracField body
  rw [BitVec.extractLsb'_toNat, Nat.shiftRight_eq_div_pow]
  omega

theorem body_lt (u : Word) : body u < 2 ^ 31 := Nat.mod_lt _ (by decide)

/-- A pattern is finite exactly below the pattern of infinity (R12). -/
theorem isFinite_iff (u : Word) : isFinite u = true ↔ body u < 0x7F800000 := by
  have h := body_lt u
  simp only [isFinite, expField_eq, bne_iff_ne]
  omega

/-- The magnitude, in units of 2^-149, of the pattern `p` without sign. -/
def magOf (p : Nat) : Nat := if p / 2 ^ 23 = 0 then p else (2 ^ 23 + p % 2 ^ 23) * 2 ^ (p / 2 ^ 23 - 1)

theorem mag_eq (u : Word) : mag u = magOf (body u) := by
  unfold mag magOf
  rw [expField_eq, fracField_eq]
  split
  · omega
  · rfl

theorem magOf_succ_lt (p : Nat) : magOf p < magOf (p + 1) := by
  have hdm := Nat.div_add_mod p (2 ^ 23)
  have hlt := Nat.mod_lt p (show 0 < 2 ^ 23 by decide)
  by_cases hr : p % 2 ^ 23 + 1 < 2 ^ 23
  · have h1 : (p + 1) / 2 ^ 23 = p / 2 ^ 23 := by omega
    have h2 : (p + 1) % 2 ^ 23 = p % 2 ^ 23 + 1 := by omega
    unfold magOf
    rw [h1, h2]
    split
    · omega
    · exact Nat.mul_lt_mul_of_pos_right (by omega) (by positivity)
  · have h1 : (p + 1) / 2 ^ 23 = p / 2 ^ 23 + 1 := by omega
    have h2 : (p + 1) % 2 ^ 23 = 0 := by omega
    unfold magOf
    rw [h1, h2]
    simp only [Nat.add_eq_zero_iff, Nat.one_ne_zero, and_false, if_false, Nat.add_zero, Nat.add_sub_cancel]
    by_cases he : p / 2 ^ 23 = 0
    · simp only [he, if_true, Nat.pow_zero, Nat.mul_one]
      omega
    · simp only [he, if_false]
      have hp : 2 ^ (p / 2 ^ 23) = 2 * 2 ^ (p / 2 ^ 23 - 1) := by
        rw [← Nat.pow_succ']
        congr 1
        omega
      rw [hp]
      have hpos : 0 < 2 ^ (p / 2 ^ 23 - 1) := by positivity
      have : 2 ^ 23 + p % 2 ^ 23 < 2 ^ 24 := by omega
      nlinarith

/-- Larger patterns have larger magnitudes. -/
theorem magOf_strictMono : StrictMono magOf := strictMono_nat_of_lt_succ magOf_succ_lt

/-! ### Rounding to an integer -/

theorem roundDiv_near (n : Nat) {d : Nat} (hd : 0 < d) :
    2 * n ≤ 2 * (d * roundDiv n d) + d ∧ 2 * (d * roundDiv n d) ≤ 2 * n + d := by
  have hdm := Nat.div_add_mod n d
  have hlt := Nat.mod_lt n hd
  unfold roundDiv
  simp only
  split
  · constructor <;> omega
  · split
    · rw [Nat.mul_add, Nat.mul_one]; constructor <;> omega
    · split
      · constructor <;> omega
      · rw [Nat.mul_add, Nat.mul_one]; constructor <;> omega

/-- A tie goes to the even integer (R13). -/
theorem roundDiv_tie {n d : Nat} (hd : 0 < d)
    (h : 2 * n = 2 * (d * roundDiv n d) + d ∨ 2 * (d * roundDiv n d) = 2 * n + d) : roundDiv n d % 2 = 0 := by
  have hdm := Nat.div_add_mod n d
  have hlt := Nat.mod_lt n hd
  unfold roundDiv at h ⊢
  simp only at h ⊢
  split at h
  · rename_i h1
    rcases h with h | h <;> omega
  · split at h
    · rename_i h1 h2
      rw [Nat.mul_add, Nat.mul_one] at h
      rcases h with h | h <;> omega
    · split at h
      · rename_i h1 h2 h3
        simp only [h1, h2, h3, if_false, if_true]
      · rename_i h1 h2 h3
        simp only [h1, h2, h3, if_false]
        omega

/-- Rounding to an integer is monotone in the quotient. -/
theorem roundDiv_mono {n d n' d' : Nat} (hd : 0 < d) (hd' : 0 < d') (h : n * d' ≤ n' * d) :
    roundDiv n d ≤ roundDiv n' d' := by
  by_contra hc
  have hc : roundDiv n' d' + 1 ≤ roundDiv n d := by omega
  have a := (roundDiv_near n hd).2
  have b := (roundDiv_near n' hd').1
  have t := @roundDiv_tie n d hd
  have t' := @roundDiv_tie n' d' hd'
  generalize roundDiv n d = r at *
  generalize roundDiv n' d' = r' at *
  have a' : 2 * (d * r) * d' ≤ (2 * n + d) * d' := Nat.mul_le_mul_right _ a
  have b' : 2 * n' * d ≤ (2 * (d' * r') + d') * d := Nat.mul_le_mul_right _ b
  have c : d * d' * (r' + 1) ≤ d * d' * r := Nat.mul_le_mul_left _ hc
  have pos : 0 < d * d' := Nat.mul_pos hd hd'
  have e1 : (2 * (d * r)) * d' = (2 * n + d) * d' := by nlinarith
  have e2 : 2 * n' * d = (2 * (d' * r') + d') * d := by nlinarith
  have er : r = r' + 1 := by
    have : d * d' * r ≤ d * d' * (r' + 1) := by nlinarith
    have := Nat.le_of_mul_le_mul_left this pos
    omega
  have f1 := Nat.eq_of_mul_eq_mul_right hd' e1
  have f2 := Nat.eq_of_mul_eq_mul_right hd e2
  have := t (.inr f1)
  have := t' (.inl f2)
  omega

theorem roundDiv_exact (k : Nat) {d : Nat} (hd : 0 < d) : roundDiv (k * d) d = k := by
  unfold roundDiv
  simp [Nat.mul_div_cancel _ hd, hd]

/-! ### Rounding to a pattern -/

/-- The pattern before the overflow to infinity. -/
def rndRaw (n d : Nat) : Nat :=
  (Nat.log2 (n / d) - 23) * 2 ^ 23 + roundDiv n (d * 2 ^ (Nat.log2 (n / d) - 23))

theorem rndMag_eq (n d : Nat) : rndMag n d = min 0x7F800000 (rndRaw n d) := by
  unfold rndMag rndRaw
  simp only
  split <;> omega

theorem rndMag_le (n d : Nat) : rndMag n d ≤ 0x7F800000 := by
  rw [rndMag_eq]
  exact Nat.min_le_left _ _

theorem rnd32_body (neg : Bool) (n d : Nat) : body (rnd32 neg n d) = rndMag n d := by
  have h := rndMag_le n d
  have hm : rndMag n d % 2 ^ 32 = rndMag n d := Nat.mod_eq_of_lt (by omega)
  unfold body rnd32
  rw [BitVec.toNat_or, BitVec.toNat_ofNat, hm]
  cases neg with
  | false =>
    have e : (if false = true then 0x80000000#32 else 0x00000000#32).toNat = 0 := rfl
    rw [e, Nat.zero_or]
    exact Nat.mod_eq_of_lt (by omega)
  | true =>
    have e : (if true = true then 0x80000000#32 else 0x00000000#32).toNat = 2 ^ 31 * 1 := rfl
    rw [e, ← Nat.two_pow_add_eq_or_of_lt (show rndMag n d < 2 ^ 31 by omega)]
    omega

theorem rnd32_msb (neg : Bool) (n d : Nat) : (rnd32 neg n d).msb = neg := by
  have h := rndMag_le n d
  have hm : (BitVec.ofNat 32 (rndMag n d)).msb = false := by
    rw [BitVec.msb_eq_decide, BitVec.toNat_ofNat, Nat.mod_eq_of_lt (by omega)]
    simp
    omega
  unfold rnd32
  rw [BitVec.msb_or, hm]
  cases neg <;> decide

/-- A word is its sign and its body. -/
theorem eq_of_body {u v : Word} (hs : u.msb = v.msb) (hb : body u = body v) : u = v := by
  have hu := u.isLt
  have hv := v.isLt
  rw [BitVec.msb_eq_decide, BitVec.msb_eq_decide] at hs
  unfold body at hb
  apply BitVec.eq_of_toNat_eq
  have : (2 ^ 31 ≤ u.toNat) ↔ (2 ^ 31 ≤ v.toNat) := by simpa using hs
  omega

theorem shift_bounds {n d : Nat} (hd : 0 < d) :
    let sh := Nat.log2 (n / d) - 23
    roundDiv n (d * 2 ^ sh) ≤ 2 ^ 24 ∧ (sh ≠ 0 → 2 ^ 23 ≤ roundDiv n (d * 2 ^ sh)) := by
  intro sh
  have hpos : 0 < d * 2 ^ sh := Nat.mul_pos hd (by positivity)
  have hq : n / d < 2 ^ (24 + sh) := by
    rcases Nat.eq_zero_or_pos (n / d) with h0 | h0
    · rw [h0]; positivity
    · refine Nat.lt_of_lt_of_le Nat.lt_log2_self (Nat.pow_le_pow_right (by decide) ?_)
      omega
  have hn : n < 2 ^ (24 + sh) * d := (Nat.div_lt_iff_lt_mul hd).1 hq
  constructor
  · refine le_trans (roundDiv_mono (n' := 2 ^ 24 * (d * 2 ^ sh)) hpos hpos ?_) (le_of_eq (roundDiv_exact _ hpos))
    refine Nat.mul_le_mul_right _ ?_
    rw [Nat.pow_add] at hn
    nlinarith
  · intro hsh
    have hlog : Nat.log2 (n / d) = 23 + sh := by omega
    have h0 : n / d ≠ 0 := by
      intro h
      rw [h, Nat.log2_zero] at hlog
      omega
    have hge : 2 ^ (23 + sh) ≤ n / d := by
      rw [← hlog]
      exact Nat.log2_self_le h0
    have hn' : 2 ^ (23 + sh) * d ≤ n := (Nat.le_div_iff_mul_le hd).1 hge
    refine le_trans (le_of_eq (roundDiv_exact _ hpos).symm) (roundDiv_mono (n := 2 ^ 23 * (d * 2 ^ sh)) hpos hpos ?_)
    refine Nat.mul_le_mul_right _ ?_
    rw [Nat.pow_add] at hn'
    nlinarith

/-- Rounding is monotone in the magnitude rounded (R13). -/
theorem rndMag_mono {n d n' d' : Nat} (hd : 0 < d) (hd' : 0 < d') (h : n * d' ≤ n' * d) : rndMag n d ≤ rndMag n' d' := by
  have hq : n / d ≤ n' / d' := by
    rw [Nat.le_div_iff_mul_le hd']
    have h1 := Nat.div_mul_le_self n d
    have h2 : n / d * d' * d ≤ n' * d := by nlinarith
    exact Nat.le_of_mul_le_mul_right h2 hd
  have hl : Nat.log2 (n / d) ≤ Nat.log2 (n' / d') := by
    rcases Nat.eq_zero_or_pos (n / d) with h0 | h0
    · rw [h0]; simp
    · rw [Nat.le_log2 (by omega)]
      exact le_trans (Nat.log2_self_le (by omega)) hq
  have b := @shift_bounds n d hd
  have b' := @shift_bounds n' d' hd'
  simp only at b b'
  rw [rndMag_eq, rndMag_eq]
  refine min_le_min_left _ ?_
  unfold rndRaw
  rcases Nat.lt_or_ge (Nat.log2 (n / d) - 23) (Nat.log2 (n' / d') - 23) with hs | hs
  · have h1 := b.1
    have h2 := b'.2 (by omega)
    generalize roundDiv n (d * 2 ^ (Nat.log2 (n / d) - 23)) = r at *
    generalize roundDiv n' (d' * 2 ^ (Nat.log2 (n' / d') - 23)) = r' at *
    omega
  · have he : Nat.log2 (n' / d') - 23 = Nat.log2 (n / d) - 23 := by omega
    rw [he]
    have hp : 0 < 2 ^ (Nat.log2 (n / d) - 23) := by positivity
    exact Nat.add_le_add_left
      (roundDiv_mono (n := n) (n' := n') (Nat.mul_pos hd hp) (Nat.mul_pos hd' hp) (by nlinarith)) _

/-- A finite value rounds to its own pattern (R13). -/
theorem rndMag_exact {p d : Nat} (hd : 0 < d) (hp : p ≤ 0x7F800000) : rndMag (magOf p * d) d = p := by
  have hdm := Nat.div_add_mod p (2 ^ 23)
  have hlt := Nat.mod_lt p (show 0 < 2 ^ 23 by decide)
  unfold rndMag
  simp only [Nat.mul_div_cancel _ hd]
  by_cases he : p / 2 ^ 23 = 0
  · have hm : magOf p = p := if_pos he
    have hlog : Nat.log2 p - 23 = 0 := by
      rcases Nat.eq_zero_or_pos p with h0 | h0
      · simp [h0]
      · have : Nat.log2 p < 24 := (Nat.log2_lt (by omega)).2 (by omega)
        omega
    rw [hm, hlog]
    simp only [Nat.pow_zero, Nat.mul_one, Nat.zero_mul, Nat.zero_add, roundDiv_exact p hd]
    split <;> omega
  · have hm : magOf p = (2 ^ 23 + p % 2 ^ 23) * 2 ^ (p / 2 ^ 23 - 1) := if_neg he
    have hpos : 0 < 2 ^ (p / 2 ^ 23 - 1) := by positivity
    have h0 : magOf p ≠ 0 := by
      rw [hm]
      exact Nat.ne_of_gt (Nat.mul_pos (by omega) hpos)
    have hlog : Nat.log2 (magOf p) = 23 + (p / 2 ^ 23 - 1) := by
      rw [Nat.log2_eq_iff h0, hm]
      generalize p / 2 ^ 23 - 1 = x at *
      constructor
      · rw [Nat.pow_add]
        exact Nat.mul_le_mul_right _ (by omega)
      · have : 2 ^ (23 + x + 1) = 2 ^ 24 * 2 ^ x := by rw [← Nat.pow_add]; congr 1; omega
        rw [this]
        exact Nat.mul_lt_mul_of_pos_right (by omega) hpos
    have hsh : Nat.log2 (magOf p) - 23 = p / 2 ^ 23 - 1 := by omega
    have hr : roundDiv (magOf p * d) (d * 2 ^ (p / 2 ^ 23 - 1)) = 2 ^ 23 + p % 2 ^ 23 := by
      have : magOf p * d = (2 ^ 23 + p % 2 ^ 23) * (d * 2 ^ (p / 2 ^ 23 - 1)) := by rw [hm]; ring
      rw [this, roundDiv_exact _ (Nat.mul_pos hd hpos)]
    rw [hsh, hr]
    split <;> omega

end Sys2Proof.Machine
end

