-- ==== Sys2Proof/Laws/Memory.lean ====
section
/-! SUPPORT. The laws of the frame buffer: every operation keeps the canonical form, a read after a write, a write leaves every
other address alone, a run of reads is the reads one by one, and adjacent writes join. -/

namespace Sys2Proof.Machine

/-! ### Runs of cells -/

theorem mem_cellsFrom {c : Host.Cell} : ∀ {bs : List Byte} {a : Nat}, c ∈ cellsFrom a bs → a ≤ c.1 ∧ c.1 < a + bs.length
  | [], _, h => by simp [cellsFrom] at h
  | b :: bs, a, h => by
    simp only [cellsFrom, List.mem_cons] at h
    rcases h with rfl | h
    · simp
    · have := mem_cellsFrom h
      simp only [List.length_cons]
      omega

theorem cellsFrom_pairwise : ∀ (bs : List Byte) (a : Nat), (cellsFrom a bs).Pairwise (fun c d => c.1 < d.1)
  | [], _ => by simp [cellsFrom]
  | b :: bs, a => by
    simp only [cellsFrom, List.pairwise_cons]
    exact ⟨fun c hc => by have := mem_cellsFrom hc; omega, cellsFrom_pairwise bs (a + 1)⟩

theorem cellsFrom_append : ∀ (bs cs : List Byte) (a : Nat),
    cellsFrom a (bs ++ cs) = cellsFrom a bs ++ cellsFrom (a + bs.length) cs
  | [], _, _ => rfl
  | b :: bs, cs, a => by
    simp [cellsFrom, cellsFrom_append bs cs (a + 1), Nat.add_assoc, Nat.add_comm 1]

/-! ### Reading a byte -/

@[simp] theorem readByte_nil (a : Nat) : Memory.readByte [] a = none := rfl

theorem readByte_none {m : Memory} {a : Nat} (h : ∀ c ∈ m, c.1 ≠ a) : m.readByte a = none := by
  induction m with
  | nil => rfl
  | cons c m ih =>
    have hc : c.1 ≠ a := h c (by simp)
    simp only [Memory.readByte, hc, if_false]
    exact ih (fun d hd => h d (by simp [hd]))

theorem readByte_append (m n : Memory) (a : Nat) :
    Memory.readByte (m ++ n) a = (m.readByte a).or (n.readByte a) := by
  induction m with
  | nil => simp
  | cons c m ih =>
    simp only [List.cons_append, Memory.readByte]
    split <;> simp [ih]

theorem readByte_filter (m : Memory) (p : Nat → Bool) (a : Nat) :
    Memory.readByte (m.filter (fun c => p c.1)) a = if p a then m.readByte a else none := by
  induction m with
  | nil => simp
  | cons c m ih =>
    by_cases hp : p c.1 = true <;> by_cases hc : c.1 = a
    · subst hc; simp [hp, Memory.readByte]
    · simp [hp, Memory.readByte, hc, ih]
    · subst hc; simp [hp, ih]
    · simp [hp, ih, Memory.readByte, hc]

theorem readByte_cellsFrom : ∀ (bs : List Byte) (a x : Nat),
    Memory.readByte (cellsFrom a bs) x = if a ≤ x then bs[x - a]? else none
  | [], a, x => by simp [cellsFrom]
  | b :: bs, a, x => by
    simp only [cellsFrom, Memory.readByte, readByte_cellsFrom bs (a + 1) x]
    by_cases h : a = x
    · subst h; simp
    · by_cases h1 : a ≤ x
      · have : x - a = (x - (a + 1)) + 1 := by omega
        have h2 : a + 1 ≤ x := by omega
        simp [h, h1, h2, this]
      · have h2 : ¬ a + 1 ≤ x := by omega
        simp [h, h1, h2]

/-- What every address reads as after a write: the written run inside it, what it read as before outside. -/
theorem readByte_writeRun (m : Memory) (a : Nat) (bs : List Byte) (x : Nat) :
    (m.writeRun a bs).readByte x = if a ≤ x ∧ x < a + bs.length then bs[x - a]? else m.readByte x := by
  unfold Memory.writeRun
  rw [readByte_append, readByte_append, readByte_filter m (fun y => decide (y < a)),
    readByte_filter m (fun y => decide (a + bs.length ≤ y)), readByte_cellsFrom]
  by_cases h1 : x < a
  · have h2 : ¬ a ≤ x := by omega
    have h3 : ¬ a + bs.length ≤ x := by omega
    simp [h1, h2, h3]
  · have h2 : a ≤ x := by omega
    by_cases h3 : a + bs.length ≤ x
    · have h4 : ¬ x < a + bs.length := by omega
      have h5 : bs.length ≤ x - a := by omega
      simp [h1, h2, h3, h4, List.getElem?_eq_none h5]
    · have h4 : x < a + bs.length := by omega
      simp [h1, h2, h3, h4]

/-! ### The canonical form -/

theorem Memory.wf_nil : Memory.wf [] := by simp [Memory.wf]

/-- A write inside the frame keeps the canonical form. -/
theorem Memory.writeRun_wf {m : Memory} (h : m.wf) {a : Nat} {bs : List Byte}
    (ha : a + bs.length ≤ Config.FRAME_BYTES) : (m.writeRun a bs).wf := by
  obtain ⟨hp, hb⟩ := h
  refine ⟨?_, ?_⟩
  · unfold Memory.writeRun
    rw [List.pairwise_append, List.pairwise_append]
    refine ⟨⟨hp.filter _, cellsFrom_pairwise bs a, ?_⟩, hp.filter _, ?_⟩
    · intro c hc d hd
      have := mem_cellsFrom hd
      simp only [List.mem_filter, decide_eq_true_eq] at hc
      omega
    · intro c hc d hd
      simp only [List.mem_filter, decide_eq_true_eq, List.mem_append] at hc hd
      rcases hc with hc | hc
      · omega
      · have := mem_cellsFrom hc
        omega
  · intro c hc
    simp only [Memory.writeRun, List.mem_append, List.mem_filter] at hc
    rcases hc with (hc | hc) | hc
    · exact hb c hc.1
    · have := mem_cellsFrom hc
      omega
    · exact hb c hc.1

@[simp] theorem wordBytes_length (v : Sample) : (wordBytes v).length = 2 := rfl

/-- Writing a word of the frame keeps the canonical form. -/
theorem Memory.writeWord_wf {m : Memory} (h : m.wf) {i : Nat} (v : Sample) (hi : i < Config.FRAME_WORDS) :
    (m.writeWord i v).wf := by
  refine Memory.writeRun_wf h ?_
  have hi' : i < 882 := hi
  show 2 * i + 2 ≤ 1764
  omega

/-! ### Words -/

theorem hi_append_lo (v : Sample) : hiByte v ++ loByte v = v := by
  unfold hiByte loByte
  ext i hi
  simp only [BitVec.getElem_append, BitVec.getElem_extractLsb']
  split
  · simp [BitVec.getLsbD_eq_getElem hi]
  · have : 8 + (i - 8) = i := by omega
    simp [this, BitVec.getLsbD_eq_getElem hi]

/-- A word reads as the word last written to it, and no other word changes (R44). -/
theorem readWord_writeWord (m : Memory) (i j : Nat) (v : Sample) :
    (m.writeWord i v).readWord j = if j = i then some v else m.readWord j := by
  unfold Memory.readWord Memory.writeWord
  rw [readByte_writeRun, readByte_writeRun]
  simp only [wordBytes_length]
  by_cases h : j = i
  · subst h
    have e0 : 2 * j - 2 * j = 0 := by omega
    have e1 : 2 * j + 1 - 2 * j = 1 := by omega
    have c0 : 2 * j ≤ 2 * j ∧ 2 * j < 2 * j + 2 := by omega
    have c1 : 2 * j ≤ 2 * j + 1 ∧ 2 * j + 1 < 2 * j + 2 := by omega
    simp only [c0, c1, and_self, if_true, e0, e1]
    simp [wordBytes, hi_append_lo]
  · have h0 : ¬ (2 * i ≤ 2 * j ∧ 2 * j < 2 * i + 2) := by omega
    have h1 : ¬ (2 * i ≤ 2 * j + 1 ∧ 2 * j + 1 < 2 * i + 2) := by omega
    simp only [h, h0, h1, if_false]

/-! ### Runs of reads -/

/-- In canonical form a run reads as its bytes one by one. -/
theorem readRun_eq {m : Memory} (h : m.Pairwise (fun c d => c.1 < d.1)) : ∀ (n a : Nat),
    m.readRun a n = (List.range' a n).mapM (fun x => m.readByte x) := by
  induction m with
  | nil =>
    intro n a
    cases n with
    | zero => simp [Memory.readRun]
    | succ n => simp [Memory.readRun, List.range'_succ]
  | cons c m ih =>
    rw [List.pairwise_cons] at h
    have tail : ∀ x n, c.1 < x →
        (List.range' x n).mapM (fun y => Memory.readByte (c :: m) y)
          = (List.range' x n).mapM (fun y => Memory.readByte m y) := by
      intro x n hx
      induction n generalizing x with
      | zero => simp
      | succ n ihn =>
        rw [List.range'_succ, List.mapM_cons, List.mapM_cons, ihn (x + 1) (by omega)]
        have : c.1 ≠ x := by omega
        simp [Memory.readByte, this]
    intro n a
    cases n with
    | zero => simp [Memory.readRun]
    | succ n =>
      unfold Memory.readRun
      by_cases hc : c.1 = a
      · rw [if_pos hc, ih h.2, List.range'_succ, List.mapM_cons, tail (a + 1) n (by omega)]
        simp only [Memory.readByte, hc, if_true]
        cases (List.range' (a + 1) n).mapM (fun x => Memory.readByte m x) <;> rfl
      · rw [if_neg hc]
        by_cases hl : c.1 < a
        · rw [if_pos hl, ih h.2, tail a (n + 1) hl]
        · rw [if_neg hl, List.range'_succ, List.mapM_cons]
          have : Memory.readByte (c :: m) a = none := by
            refine readByte_none ?_
            intro d hd
            rcases List.mem_cons.1 hd with rfl | hd
            · exact hc
            · have := h.1 d hd
              omega
          simp [this]

/-- The bytes of a run read back as they were written. -/
theorem readRun_cellsFrom : ∀ (bs : List Byte) (a : Nat), Memory.readRun (cellsFrom a bs) a bs.length = some bs
  | [], a => by simp [cellsFrom, Memory.readRun]
  | b :: bs, a => by simp [cellsFrom, Memory.readRun, readRun_cellsFrom bs (a + 1)]

/-! ### Whole frames -/

@[simp] theorem pairBytes_length (vs : List Sample) : (pairBytes vs).length = 4 * vs.length := by
  induction vs with
  | nil => rfl
  | cons v vs ih =>
    simp only [pairBytes, List.flatMap_cons, List.length_append, wordBytes_length, List.length_cons] at ih ⊢
    omega

theorem pairBytes_append (us vs : List Sample) : pairBytes (us ++ vs) = pairBytes us ++ pairBytes vs := by
  simp [pairBytes]

@[simp] theorem synth_length (p st : Word) (n : Nat) : (synth n p st).1.length = n := by
  induction n generalizing p with
  | zero => rfl
  | succ n ih => simp [synth, ih]

/-- A whole frame written over any canonical buffer leaves exactly the frame. -/
theorem writeRun_whole {m : Memory} (h : m.wf) {bs : List Byte} (hb : bs.length = Config.FRAME_BYTES) :
    m.writeRun 0 bs = cellsFrom 0 bs := by
  have h0 : m.filter (fun c => decide (c.1 < 0)) = [] := by simp
  have h1 : m.filter (fun c => decide (0 + bs.length ≤ c.1)) = [] := by
    rw [List.filter_eq_nil_iff]
    intro c hc
    have := h.2 c hc
    simp only [decide_eq_true_eq]
    omega
  simp only [Memory.writeRun, h0, h1, List.nil_append, List.append_nil]

/-- Two adjacent writes are one. -/
theorem writeRun_writeRun (m : Memory) (a : Nat) (bs cs : List Byte) :
    (m.writeRun a bs).writeRun (a + bs.length) cs = m.writeRun a (bs ++ cs) := by
  have low : ∀ {l : List Host.Cell} {p : Host.Cell → Bool}, (∀ c ∈ l, p c = true) → l.filter p = l := by
    intro l p hl
    exact List.filter_eq_self.2 hl
  have none : ∀ {l : List Host.Cell} {p : Host.Cell → Bool}, (∀ c ∈ l, p c = false) → l.filter p = [] := by
    intro l p hl
    rw [List.filter_eq_nil_iff]
    intro c hc
    simp [hl c hc]
  unfold Memory.writeRun
  simp only [List.filter_append, List.filter_filter, cellsFrom_append, List.length_append, List.append_assoc]
  have e1 : (m.filter fun c => (decide (c.1 < a + bs.length) && decide (c.1 < a))) = m.filter fun c => decide (c.1 < a) := by
    refine List.filter_congr ?_
    intro c _
    by_cases hc : c.1 < a
    · have : c.1 < a + bs.length := by omega
      simp [hc, this]
    · simp [hc]
  have e2 : (cellsFrom a bs).filter (fun c => decide (c.1 < a + bs.length)) = cellsFrom a bs :=
    low fun c hc => by have := mem_cellsFrom hc; simp; omega
  have e3 : (m.filter fun c => (decide (c.1 < a + bs.length) && decide (a + bs.length ≤ c.1))) = [] :=
    none fun c _ => by
      by_cases hc : c.1 < a + bs.length
      · have : ¬ a + bs.length ≤ c.1 := by omega
        simp [this]
      · simp [hc]
  have e4 : (m.filter fun c => (decide (a + bs.length + cs.length ≤ c.1) && decide (c.1 < a))) = [] :=
    none fun c _ => by
      by_cases hc : c.1 < a
      · have : ¬ a + bs.length + cs.length ≤ c.1 := by omega
        simp [this]
      · simp [hc]
  have e5 : (cellsFrom a bs).filter (fun c => decide (a + bs.length + cs.length ≤ c.1)) = [] :=
    none fun c hc => by have := mem_cellsFrom hc; simp; omega
  have e6 : (m.filter fun c => (decide (a + bs.length + cs.length ≤ c.1) && decide (a + bs.length ≤ c.1)))
      = m.filter fun c => decide (a + (bs.length + cs.length) ≤ c.1) := by
    refine List.filter_congr ?_
    intro c _
    by_cases hc : a + (bs.length + cs.length) ≤ c.1
    · have h1 : a + bs.length + cs.length ≤ c.1 := by omega
      have h2 : a + bs.length ≤ c.1 := by omega
      simp [hc, h1, h2]
    · have h1 : ¬ a + bs.length + cs.length ≤ c.1 := by omega
      simp [hc, h1]
  rw [e1, e2, e3, e4, e5, e6]
  simp

/-- The two words of a pair, written one after the other. -/
theorem writeWord_pair (m : Memory) (k : Nat) (v : Sample) :
    (m.writeWord (2 * k) v).writeWord (2 * k + 1) v = m.writeRun (4 * k) (pairBytes [v]) := by
  have h := writeRun_writeRun m (2 * (2 * k)) (wordBytes v) (wordBytes v)
  simp only [wordBytes_length] at h
  have e : 2 * (2 * k + 1) = 2 * (2 * k) + 2 := by omega
  have e4 : 2 * (2 * k) = 4 * k := by omega
  simp only [Memory.writeWord, e, h, pairBytes, List.flatMap_cons, List.flatMap_nil, List.append_nil]
  rw [e4]

end Sys2Proof.Machine
end

