-- ==== Sys2Proof/Laws/Frame.lean ====
section
/-! SUPPORT. Whole frames: what FB reads as after all pairs are written, and that a complete frame is a list of 882 words. -/

namespace Sys2Proof.Machine

theorem readByte_writeRun_zero (m : Memory) (bs : List Byte) {x : Nat} (h : x < bs.length) :
    (m.writeRun 0 bs).readByte x = bs[x]? := by
  rw [readByte_writeRun]
  have : 0 ≤ x ∧ x < 0 + bs.length := by omega
  rw [if_pos this, Nat.sub_zero]

/-- The four bytes of pair k. -/
theorem pairBytes_get : ∀ (vs : List Sample) (k : Nat),
    (pairBytes vs)[4 * k]? = vs[k]?.map loByte ∧ (pairBytes vs)[4 * k + 1]? = vs[k]?.map hiByte ∧
      (pairBytes vs)[4 * k + 2]? = vs[k]?.map loByte ∧ (pairBytes vs)[4 * k + 3]? = vs[k]?.map hiByte
  | [], k => by simp [pairBytes]
  | v :: vs, k => by
    have e : pairBytes (v :: vs) = loByte v :: hiByte v :: loByte v :: hiByte v :: pairBytes vs := rfl
    cases k with
    | zero => simp [e]
    | succ k =>
      have h := pairBytes_get vs k
      have e0 : 4 * (k + 1) = 4 * k + 4 := by omega
      simpa [e, e0] using h

/-- Both words of pair k after the pairs of `vs` are written from word 0 on (R41, R93). -/
theorem readWord_pairs (m : Memory) (vs : List Sample) {k : Nat} {v : Sample} (h : vs[k]? = some v) :
    (m.writeRun 0 (pairBytes vs)).readWord (2 * k) = some v ∧
      (m.writeRun 0 (pairBytes vs)).readWord (2 * k + 1) = some v := by
  have hk : k < vs.length := (List.getElem?_eq_some_iff.1 h).1
  obtain ⟨b0, b1, b2, b3⟩ := pairBytes_get vs k
  have r : ∀ x, x < 4 * vs.length → (m.writeRun 0 (pairBytes vs)).readByte x = (pairBytes vs)[x]? :=
    fun x hx => readByte_writeRun_zero m _ (by simpa using hx)
  have i0 : 2 * (2 * k) = 4 * k := by omega
  have i1 : 2 * (2 * k + 1) = 4 * k + 2 := by omega
  have j0 : 4 * k + 2 + 1 = 4 * k + 3 := by omega
  unfold Memory.readWord
  rw [i0, i1, j0, r _ (by omega), r _ (by omega), r _ (by omega), r _ (by omega), b0, b1, b2, b3, h]
  simp [hi_append_lo]

/-- 441 pairs are a complete frame (R26, R41). -/
theorem completeFrame_pairs (m : Memory) {vs : List Sample} (h : vs.length = Config.N) :
    completeFrame (m.writeRun 0 (pairBytes vs)) := by
  have pair : ∀ k < 441, ∃ v, (m.writeRun 0 (pairBytes vs)).readWord (2 * k) = some v ∧
      (m.writeRun 0 (pairBytes vs)).readWord (2 * k + 1) = some v := by
    intro k hk
    have hk' : k < vs.length := by rw [h]; exact hk
    exact ⟨vs[k], readWord_pairs m vs (List.getElem?_eq_getElem hk')⟩
  constructor
  · intro i hi
    have hi' : i < 882 := hi
    obtain ⟨v, h0, h1⟩ := pair (i / 2) (by omega)
    rcases Nat.mod_two_eq_zero_or_one i with hm | hm
    · have : 2 * (i / 2) = i := by omega
      rw [this] at h0
      simp [h0]
    · have : 2 * (i / 2) + 1 = i := by omega
      rw [this] at h1
      simp [h1]
  · intro k hk
    obtain ⟨v, h0, h1⟩ := pair k hk
    rw [h0, h1]

theorem bytesWords_get : ∀ (bs : List Byte) (n i : Nat), bs.length = 2 * n → i < n →
    ∃ lo hi, bs[2 * i]? = some lo ∧ bs[2 * i + 1]? = some hi ∧ (bytesWords bs)[i]? = some (hi ++ lo)
  | [], n, i, hn, hi => by simp at hn; omega
  | [_], n, i, hn, _ => by simp at hn; omega
  | lo :: hi :: bs, n, i, hn, hin => by
    cases i with
    | zero => exact ⟨lo, hi, by simp, by simp, by simp [bytesWords]⟩
    | succ i =>
      have hl : bs.length = 2 * (n - 1) := by simp only [List.length_cons] at hn; omega
      obtain ⟨a, b, h0, h1, h2⟩ := bytesWords_get bs (n - 1) i hl (by omega)
      have e : 2 * (i + 1) = 2 * i + 2 := by omega
      exact ⟨a, b, by simpa [e] using h0, by simpa [e] using h1, by simpa [bytesWords] using h2⟩

theorem bytesWords_length : ∀ (bs : List Byte), (bytesWords bs).length = bs.length / 2
  | [] => rfl
  | [_] => by simp [bytesWords]
  | _ :: _ :: bs => by
    simp only [bytesWords, List.length_cons, bytesWords_length bs]
    omega

theorem mapM_some {m : Memory} : ∀ (n a : Nat), (∀ x, a ≤ x → x < a + n → (m.readByte x).isSome = true) →
    ∃ bs : List Byte, (List.range' a n).mapM (fun x => m.readByte x) = some bs ∧ bs.length = n ∧
      ∀ j < n, m.readByte (a + j) = bs[j]?
  | 0, a, _ => ⟨[], by simp, rfl, by simp⟩
  | n + 1, a, h => by
    obtain ⟨b, hb⟩ := Option.isSome_iff_exists.1 (h a (by omega) (by omega))
    obtain ⟨bs, h0, h1, h2⟩ := mapM_some n (a + 1) (fun x hx hx' => h x (by omega) (by omega))
    refine ⟨b :: bs, by simp [List.range'_succ, hb, h0], by simp [h1], ?_⟩
    intro j hj
    cases j with
    | zero => simpa using hb
    | succ j =>
      have := h2 j (by omega)
      have e : a + (j + 1) = a + 1 + j := by omega
      rw [e, this]
      simp

/-- A complete frame in canonical form is a list of 882 words, word i the one FB reads at i (R26, R94). -/
theorem frame_of_complete {m : Memory} (hw : m.wf) (hc : completeFrame m) :
    ∃ ws : List Sample, m.frame = some ws ∧ ws.length = 882 ∧ ∀ i < 882, m.readWord i = ws[i]? := by
  have bytes : ∀ x, 0 ≤ x → x < 0 + 1764 → (m.readByte x).isSome = true := by
    intro x _ hx
    have h := hc.1 (x / 2) (show x / 2 < 882 by omega)
    unfold Memory.readWord at h
    rcases Nat.mod_two_eq_zero_or_one x with hm | hm
    · have : 2 * (x / 2) = x := by omega
      rw [this] at h
      cases hb : m.readByte x with
      | none => rw [hb] at h; simp at h
      | some b => rfl
    · have e : 2 * (x / 2) + 1 = x := by omega
      rw [e] at h
      cases hb : m.readByte x with
      | none => rw [hb] at h; cases hb' : m.readByte (2 * (x / 2)) <;> rw [hb'] at h <;> simp at h
      | some b => rfl
  obtain ⟨bs, h0, h1, h2⟩ := mapM_some 1764 0 bytes
  refine ⟨bytesWords bs, ?_, ?_, ?_⟩
  · rw [Memory.frame, readRun_eq hw.1, h0]
    rfl
  · rw [bytesWords_length, h1]
  · intro i hi
    obtain ⟨lo, hi', b0, b1, b2⟩ := bytesWords_get bs 882 i h1 hi
    have r0 := h2 (2 * i) (by omega)
    have r1 := h2 (2 * i + 1) (by omega)
    rw [Nat.zero_add] at r0 r1
    rw [Memory.readWord, r0, r1, b0, b1, b2]

end Sys2Proof.Machine
end

