-- ==== Sys2Proof/Laws/Ops.lean ====
section
/-! SUPPORT. Once for each operation, everything it can answer: the meanings that have several ends, the burst, the step. -/

namespace Sys2Proof.Machine

/-- Everything a `SETP` can answer (R71). -/
theorem execSetp_next {freq amp : Word} {s t : State} (h : execSetp freq amp s = .next t) :
    (∃ st, stepOf freq = some st ∧ t = respond codeOK st { s with amp := amp, astep := st }) ∨
      (stepOf freq = none ∧ t = partialEnd { s with amp := amp }) := by
  unfold execSetp at h
  cases hs : stepOf freq with
  | some st => rw [hs] at h; simp only [Host.Outcome.next.injEq] at h; exact .inl ⟨st, rfl, h.symm⟩
  | none => rw [hs] at h; simp only [Host.Outcome.next.injEq] at h; exact .inr ⟨rfl, h.symm⟩

/-- Everything a `RDSR` can answer (R111). -/
theorem execRdsr_next {idx : Word} {s t : State} (h : execRdsr idx s = .next t) :
    (∃ v, selectRegister idx s = some v ∧ t = respond codeOK v s) ∨
      (selectRegister idx s = none ∧ t = refuse codeILLEGAL s) := by
  unfold execRdsr at h
  cases hs : selectRegister idx s with
  | some v => rw [hs] at h; simp only [Host.Outcome.next.injEq] at h; exact .inl ⟨v, rfl, h.symm⟩
  | none => rw [hs] at h; simp only [Host.Outcome.next.injEq] at h; exact .inr ⟨rfl, h.symm⟩

/-- Everything a `RDFB` can answer (R112). -/
theorem execRdfb_next {idx : Word} {s t : State} (h : execRdfb idx s = .next t) :
    (frameIndex idx = none ∧ t = refuse codeILLEGAL s) ∨
      (∃ i, frameIndex idx = some i ∧ s.fv = false ∧ t = refuse codeNOFRAME s) ∨
      (∃ i v, frameIndex idx = some i ∧ s.fv = true ∧ s.fb.readWord i.val = some v ∧
        t = respond codeOK (v.setWidth 32) s) := by
  unfold execRdfb at h
  cases hi : frameIndex idx with
  | none => rw [hi] at h; simp only [Host.Outcome.next.injEq] at h; exact .inl ⟨rfl, h.symm⟩
  | some i =>
    rw [hi] at h
    cases hf : s.fv with
    | false => simp only [hf, if_true, Host.Outcome.next.injEq] at h; exact .inr (.inl ⟨i, rfl, rfl, h.symm⟩)
    | true =>
      cases hr : s.fb.readWord i.val with
      | none => simp [hf, hr] at h
      | some v =>
        simp only [hf, hr, Bool.true_eq_false, if_false, Host.Outcome.next.injEq] at h
        exact .inr (.inr ⟨i, v, rfl, rfl, hr, h.symm⟩)

/-- Everything an `EMIT` can answer (R94). -/
theorem execEmit_next {s t : State} (h : execEmit s = .next t) :
    (s.fv = false ∧ t = refuse codeNOFRAME s) ∨
      (s.fv = true ∧ s.pins.devReady = false ∧ t = refuse codeNOTREADY s) ∨
      (∃ ws, s.fv = true ∧ s.pins.devReady = true ∧ s.fb.frame = some ws ∧ t = burstOutcome ws s.pins.draw s) := by
  unfold execEmit at h
  cases hf : s.fv with
  | false => simp only [hf, if_true, Host.Outcome.next.injEq] at h; exact .inl ⟨rfl, h.symm⟩
  | true =>
    cases hd : s.pins.devReady with
    | false =>
      simp only [hf, hd, Bool.true_eq_false, if_false, if_true, Host.Outcome.next.injEq] at h
      exact .inr (.inl ⟨rfl, rfl, h.symm⟩)
    | true =>
      cases hr : s.fb.frame with
      | none => simp [hf, hd, hr] at h
      | some ws =>
        simp only [hf, hd, hr, Bool.true_eq_false, if_false, Host.Outcome.next.injEq] at h
        exact .inr (.inr ⟨ws, rfl, rfl, rfl, h.symm⟩)

/-- What no burst changes, whatever its outcome (R94, R97). -/
theorem burstOutcome_frame (ws : List Sample) (draw : BurstDraw) (s : State) :
    (burstOutcome ws draw s).phase = s.phase ∧ (burstOutcome ws draw s).astep = s.astep ∧
      (burstOutcome ws draw s).amp = s.amp ∧ (burstOutcome ws draw s).perr = s.perr ∧
      (burstOutcome ws draw s).k = s.k ∧ (burstOutcome ws draw s).cmd = s.cmd ∧
      (burstOutcome ws draw s).snkAbort = s.snkAbort ∧ (burstOutcome ws draw s).pins = s.pins ∧
      (burstOutcome ws draw s).inputs = s.inputs := by
  cases draw <;> exact ⟨rfl, rfl, rfl, rfl, rfl, rfl, rfl, rfl, rfl⟩

/-- `exec` never refuses: every command has a meaning. -/
theorem exec_not_refused (i : Instr) (s : State) (r : Refusal) : exec i s ≠ .refused r := by
  cases i <;> simp only [exec, execNop, execSetp, execStep, execProd, execEmit, execRdsr, execRdfb, execClrf] <;>
    (repeat' split) <;> simp

/-- Only a missing byte of FB under FV = 1 makes `exec` fault (log 4). -/
theorem exec_fault {i : Instr} {s : State} {f : Fault} (h : exec i s = .fault f) :
    s.fv = true ∧ ((i = .emit ∧ s.fb.frame = none) ∨
      ∃ idx n, i = .rdfb idx ∧ frameIndex idx = some n ∧ s.fb.readWord n.val = none) := by
  cases i with
  | nop => simp [exec, execNop] at h
  | setp freq amp => simp only [exec, execSetp] at h; split at h <;> simp at h
  | step => simp [exec, execStep] at h
  | prod => simp [exec, execProd] at h
  | emit =>
    simp only [exec, execEmit] at h
    split at h
    · simp at h
    · split at h
      · simp at h
      · split at h
        · exact ⟨by simpa using ‹¬ s.fv = false›, .inl ⟨rfl, ‹_›⟩⟩
        · simp at h
  | rdsr idx => simp only [exec, execRdsr] at h; split at h <;> simp at h
  | rdfb idx =>
    simp only [exec, execRdfb] at h
    split at h
    · simp at h
    · split at h
      · simp at h
      · split at h
        · simp at h
        · exact ⟨by simpa using ‹¬ s.fv = false›, .inr ⟨idx, _, rfl, ‹_›, ‹_›⟩⟩
  | clrf mask => simp [exec, execClrf] at h

/-- Everything a step can answer with a next state (R18, R56, R60, R140). -/
theorem step_next {s t : State} (h : step s = .next t) :
    (s.inputs = [] ∧ t = s) ∨
      (∃ rest, s.inputs = .rst :: rest ∧ t = applyReset { s with inputs := rest }) ∨
      (∃ word pins rest, s.inputs = .command word pins :: rest ∧ s.seq ≠ .idle ∧ t = s) ∨
      (∃ word pins rest u, s.inputs = .command word pins :: rest ∧ s.seq = .idle ∧
        runWord word (accept word pins { s with inputs := rest }) = .next u ∧ t = settle u) := by
  unfold step commandStep at h
  cases hi : s.inputs with
  | nil => rw [hi] at h; simp only [Host.Outcome.next.injEq] at h; exact .inl ⟨rfl, h.symm⟩
  | cons e rest =>
    rw [hi] at h
    cases e with
    | rst => simp only [Host.Outcome.next.injEq] at h; exact .inr (.inl ⟨rest, rfl, h.symm⟩)
    | command word pins =>
      cases hq : s.seq with
      | exec =>
        simp only [hq, Host.Outcome.next.injEq] at h
        exact .inr (.inr (.inl ⟨word, pins, rest, rfl, by simp, h.symm⟩))
      | resp =>
        simp only [hq, Host.Outcome.next.injEq] at h
        exact .inr (.inr (.inl ⟨word, pins, rest, rfl, by simp, h.symm⟩))
      | idle =>
        simp only [hq, settleResult] at h
        split at h
        · simp only [Host.Outcome.next.injEq] at h
          exact .inr (.inr (.inr ⟨word, pins, rest, _, rfl, rfl, ‹_›, h.symm⟩))
        · simp at h
        · simp at h

/-- What a command word runs: its command, or the refusal of a reserved opcode (R60). -/
theorem runWord_next {word : CmdWord} {s t : State} (h : runWord word s = .next t) :
    (∃ i, decode word = .ok i ∧ exec i s = .next t) ∨
      (∃ e, decode word = .error e ∧ t = refuse codeILLEGAL s) := by
  unfold runWord at h
  split at h
  · exact .inl ⟨_, ‹_›, h⟩
  · simp only [Host.Outcome.next.injEq] at h; exact .inr ⟨_, ‹_›, h.symm⟩

/-! ### Packing and reading off a synthesis -/

/-- The samples of `m + n` advances are those of the first `m` and then of the next `n` (R93). -/
theorem synth_add (p st : Word) (m n : Nat) :
    synth (m + n) p st =
      ((synth m p st).1 ++ (synth n (synth m p st).2 st).1, (synth n (synth m p st).2 st).2) := by
  induction m generalizing p with
  | zero => simp [synth]
  | succ m ih => rw [Nat.succ_add, synth, ih]; simp [synth]

end Sys2Proof.Machine
end

