-- ==== Sys2Proof/Laws/Oscillator.lean ====
section
/-! SUPPORT. The laws of the oscillator: an advance gives a legal phase (R73 fact (d)), a synthesis ends at one, an accepted step
is finite (R22). -/

namespace Sys2Proof.Machine

theorem toNat_of_msb {u : Word} (h : u.msb = false) : u.toNat = body u := by
  have hu := u.isLt
  have h' : ¬ 2 ^ 31 ≤ u.toNat := by simpa [BitVec.msb_eq_decide] using h
  unfold body
  omega

/-- A magnitude no larger than that of a finite pattern rounds to a pattern no larger. -/
theorem rndMag_le_pattern {n p : Nat} (hp : p ≤ 0x7F800000) (h : n ≤ magOf p) : rndMag n 1 ≤ p := by
  have h1 := rndMag_mono (n := n) (d := 1) (n' := magOf p * 1) (d' := 1) Nat.one_pos Nat.one_pos (by omega)
  rwa [rndMag_exact Nat.one_pos hp] at h1

theorem twoPi_msb : Config.TWO_PI_F.msb = false := by decide

theorem twoPi_body_le : body Config.TWO_PI_F ≤ 0x7F800000 := by decide

theorem twoPi_body_pos : 0 < body Config.TWO_PI_F := by decide

theorem units_twoPi : units Config.TWO_PI_F = (magOf (body Config.TWO_PI_F) : Int) := by
  unfold units
  rw [mag_eq, twoPi_msb]
  simp only [Bool.false_eq_true, if_false]

theorem twoPi_units_pos : 0 < units Config.TWO_PI_F := by
  have h : magOf 0 < magOf (body Config.TWO_PI_F) := magOf_strictMono twoPi_body_pos
  rw [units_twoPi]
  omega

theorem zero_legal : legalPhase 0 = true := by decide

/-- A magnitude below that of `c` rounds to a pattern below `c`, unless it rounds to `c` itself. -/
theorem round_below {r : Int} {c : Word} (hc : c.msb = false) (hb : body c ≤ 0x7F800000) (hlt : r < (magOf (body c) : Int))
    (hne : rnd32 false r.toNat 1 ≠ c) : (rnd32 false r.toNat 1).toNat < c.toNat := by
  have h1 : body (rnd32 false r.toNat 1) ≤ body c := by
    rw [rnd32_body]
    exact rndMag_le_pattern hb (by omega)
  rw [← toNat_of_msb hc, ← toNat_of_msb (rnd32_msb false r.toNat 1)] at h1
  exact Nat.lt_of_le_of_ne h1 fun h => hne (BitVec.eq_of_toNat_eq h)

/-- The floored remainder, rounded, is a legal phase (R73 fact (d)). -/
theorem wrap_legal (t : Word) : legalPhase (wrap t) = true := by
  have hlt := Int.emod_lt_of_pos (units t) twoPi_units_pos
  rw [units_twoPi] at hlt
  unfold wrap
  simp only
  rw [units_twoPi]
  generalize units t % _ = r at hlt
  split
  · exact zero_legal
  · rename_i hne
    exact decide_eq_true (round_below twoPi_msb twoPi_body_le hlt hne)

/-! The operations where their rules define them. -/

theorem advance_eq {p st : Word} (hp : legalPhase p = true) (hs : isFinite st = true) :
    advance p st = wrap (fadd p st) := by
  have h : (legalPhase p && isFinite st) = true := by rw [hp, hs]; rfl
  rw [advance, if_pos h]

theorem sin7_eq {p : Word} (hp : legalPhase p = true) : sin7 p = poly (reduce p) := by rw [sin7, if_pos hp]

theorem pack_eq {y : Word} (hy : isFinite y = true) (hv : isFinite (fmul y Config.SCALE_F) = true) :
    pack y = BitVec.ofInt 16 (trunc16 (fmul y Config.SCALE_F) + Config.BIAS) := by
  have h : (isFinite y && isFinite (fmul y Config.SCALE_F)) = true := by rw [hy, hv]; rfl
  rw [pack, if_pos h]

/-- An advance from a legal phase by a finite step gives a legal phase (R83). -/
theorem advance_legal {p st : Word} (hp : legalPhase p = true) (hs : isFinite st = true) :
    legalPhase (advance p st) = true := by
  rw [advance_eq hp hs]
  exact wrap_legal _

/-- A synthesis from a legal phase by a finite step ends at a legal phase (R93). -/
theorem synth_legal {st : Word} (hs : isFinite st = true) : ∀ (n : Nat) {p : Word}, legalPhase p = true →
    legalPhase (synth n p st).2 = true
  | 0, _, h => h
  | n + 1, _, h => synth_legal hs n (advance_legal h hs)

theorem finite?_isFinite {u v : Word} (h : finite? u = some v) : isFinite v = true := by
  unfold finite? at h
  split at h
  · cases h
    assumption
  · cases h

/-- A step that `SETP` accepts is finite (R22, R71). -/
theorem stepOf_finite {freq st : Word} (h : stepOf freq = some st) : isFinite st = true := by
  unfold stepOf at h
  cases hm : fmulAny Config.TWO_PI_F freq with
  | none => rw [hm] at h; cases h
  | some m =>
    rw [hm, Option.bind_some] at h
    unfold fdivAny at h
    split at h
    · exact finite?_isFinite h
    · cases h

end Sys2Proof.Machine
end

