-- ==== Sys2Proof/Laws/PerInstr.lean ====
section
/-! SUPPORT. Family OpcodeField: the word of a command carries its opcode in bits 67:64 (R55, R57), so the decoder of R57 reads
the opcode back; one lemma per command. -/

namespace Sys2Proof.Laws

theorem op_mk (op : BitVec 4) (a b : Word) : (CmdWord.mk op a b).op = op := by
  unfold CmdWord.op CmdWord.mk
  ext i hi
  simp only [BitVec.getElem_extractLsb', BitVec.getLsbD_append]
  have h1 : ¬ (64 + i < 32) := by omega
  have h2 : ¬ (64 + i - 32 < 32) := by omega
  have h3 : 64 + i - 32 - 32 = i := by omega
  simp [h1, h2, h3, BitVec.getLsbD_eq_getElem hi]

theorem a_mk (op : BitVec 4) (a b : Word) : (CmdWord.mk op a b).a = a := by
  unfold CmdWord.a CmdWord.mk
  ext i hi
  simp only [BitVec.getElem_extractLsb', BitVec.getLsbD_append]
  have h1 : ¬ (32 + i < 32) := by omega
  have h2 : 32 + i - 32 = i := by omega
  simp [h1, h2, hi]

theorem b_mk (op : BitVec 4) (a b : Word) : (CmdWord.mk op a b).b = b := by
  unfold CmdWord.b CmdWord.mk
  ext i hi
  simp only [BitVec.getElem_extractLsb', Nat.zero_add]
  rw [BitVec.getLsbD_append, if_pos hi, BitVec.getLsbD_eq_getElem hi]

end Sys2Proof.Laws

namespace Sys2Proof.Laws.OpcodeField

/-- The opcode field of the command's word. -/
def Statement (i : Instr) : Prop := (encode i).op = i.opcode

theorem nop : Statement .nop := Sys2Proof.Laws.op_mk _ _ _
theorem setp (freq amp : Word) : Statement (.setp freq amp) := Sys2Proof.Laws.op_mk _ _ _
theorem step : Statement .step := Sys2Proof.Laws.op_mk _ _ _
theorem prod : Statement .prod := Sys2Proof.Laws.op_mk _ _ _
theorem emit : Statement .emit := Sys2Proof.Laws.op_mk _ _ _
theorem rdsr (idx : Word) : Statement (.rdsr idx) := Sys2Proof.Laws.op_mk _ _ _
theorem rdfb (idx : Word) : Statement (.rdfb idx) := Sys2Proof.Laws.op_mk _ _ _
theorem clrf (mask : Word) : Statement (.clrf mask) := Sys2Proof.Laws.op_mk _ _ _

end Sys2Proof.Laws.OpcodeField
end

