-- ==== Sys2Proof/Laws/Signal.lean ====
section
/-! SUPPORT. The laws of the signal level: what a cycle does in each state of SEQ, the cases of R96 one by one, and how a run of
cycles goes on. -/

namespace Sys2Proof.Machine

/-! ## One cycle -/

theorem cycle_rst {c : CycleIn} (h : c.rst = true) (s : State) : cycle c s = .next (applyReset s) := by
  simp [cycle, h]

theorem cycle_idle {c : CycleIn} {s : State} (h : c.rst = false) (hs : s.seq = .idle) :
    cycle c s = .next (if c.cmdValid then acceptCycle c { s with snkAbort := false } else { s with snkAbort := false }) := by
  simp [cycle, h, hs]

theorem cycle_exec {c : CycleIn} {s : State} (h : c.rst = false) (hs : s.seq = .exec) :
    cycle c s = execCycle c { s with snkAbort := false } := by
  simp [cycle, h, hs]

theorem cycle_resp {c : CycleIn} {s : State} (h : c.rst = false) (hs : s.seq = .resp) :
    cycle c s = .next (if c.rspReady then { s with snkAbort := false, seq := .idle } else { s with snkAbort := false }) := by
  simp [cycle, h, hs]

/-! ## A cycle of a command in execution -/

theorem cycle_burst {c : CycleIn} {s : State} (h : c.rst = false) (hs : s.seq = .exec) (hb : s.burst = true) :
    cycle c s = burstCycle c { s with snkAbort := false } := by
  simp [cycle_exec h hs, execCycle, hb]

theorem cycle_waits {c : CycleIn} {s : State} (h : c.rst = false) (hs : s.seq = .exec) (hb : s.burst = false)
    (hg : c.go = false) : cycle c s = .next { s with snkAbort := false } := by
  simp [cycle_exec h hs, execCycle, hb, hg]

theorem cycle_responds {c : CycleIn} {s : State} (h : c.rst = false) (hs : s.seq = .exec) (hb : s.burst = false)
    (hg : c.go = true) (hr : s.rsp.isSome = true) : cycle c s = .next { s with snkAbort := false, seq := .resp } := by
  simp [cycle_exec h hs, execCycle, hb, hg, hr]

theorem cycle_prod {c : CycleIn} {s : State} (h : c.rst = false) (hs : s.seq = .exec) (hb : s.burst = false)
    (hg : c.go = true) (hr : s.rsp = none) (hd : decode s.cmd = .ok .prod) :
    cycle c s = .next (prodCycle { s with snkAbort := false }) := by
  simp [cycle_exec h hs, execCycle, hb, hg, hr, hd]

/-- Every command but PROD has its whole effect in one cycle. -/
theorem cycle_short {c : CycleIn} {s : State} (h : c.rst = false) (hs : s.seq = .exec) (hb : s.burst = false)
    (hg : c.go = true) (hr : s.rsp = none) (hd : decode s.cmd ≠ .ok .prod) :
    cycle c s = runWord s.cmd { s with snkAbort := false } := by
  simp only [cycle_exec h hs, execCycle, hb, hg, hr, Bool.false_eq_true, if_false, Option.isSome_none, reduceCtorEq]

/-! ## The cases of R96 -/

theorem cycle_sinkErr {c : CycleIn} {s : State} (h : c.rst = false) (hs : s.seq = .exec) (hb : s.burst = true)
    (he : c.snkErr = true) : cycle c s = .next (endBurst c true (fail .sinkErr s.w.val { s with snkAbort := false })) := by
  simp [cycle_burst h hs hb, burstCycle, he]

theorem cycle_lastWord {c : CycleIn} {s : State} (h : c.rst = false) (hs : s.seq = .exec) (hb : s.burst = true)
    (he : c.snkErr = false) (hl : (s.snkValid && c.snkReady && atLastWord s) = true) :
    cycle c s = transfer { s with snkAbort := false }
      (fun u => endBurst c false (respond codeOK (BitVec.ofNat 32 Config.FRAME_WORDS) (dropFrame u))) := by
  have hl' : (s.snkValid && c.snkReady && atLastWord { s with snkAbort := false }) = true := hl
  simp only [cycle_burst h hs hb, burstCycle, he, hl', Bool.false_eq_true, if_false, if_true]

theorem cycle_timeout {c : CycleIn} {s : State} (h : c.rst = false) (hs : s.seq = .exec) (hb : s.burst = true)
    (he : c.snkErr = false) (hl : (s.snkValid && c.snkReady && atLastWord s) = false)
    (ht : (c.fsCe && s.tmr.toNat == Config.TIMEOUT_TICKS - 1) = true) :
    cycle c s = .next (endBurst c true (fail .timeout s.w.val { s with snkAbort := false })) := by
  have hl' : (s.snkValid && c.snkReady && atLastWord { s with snkAbort := false }) = false := hl
  simp only [cycle_burst h hs hb, burstCycle, he, hl', ht, Bool.false_eq_true, if_false, if_true]

theorem cycle_goesOn {c : CycleIn} {s : State} (h : c.rst = false) (hs : s.seq = .exec) (hb : s.burst = true)
    (he : c.snkErr = false) (hl : (s.snkValid && c.snkReady && atLastWord s) = false)
    (ht : (c.fsCe && s.tmr.toNat == Config.TIMEOUT_TICKS - 1) = false) :
    cycle c s = burstGoesOn c { s with snkAbort := false } := by
  have hl' : (s.snkValid && c.snkReady && atLastWord { s with snkAbort := false }) = false := hl
  simp only [cycle_burst h hs hb, burstCycle, he, hl', ht, Bool.false_eq_true, if_false]

/-- The word on offer has a value in a complete frame, so its transfer goes on. -/
theorem transfer_complete {s : State} (h : completeFrame s.fb) (after : State → State) :
    ∃ v, s.fb.readWord s.w.val = some v ∧ transfer s after = .next (after (sinkPut [burstWord s.w.val v] s)) := by
  obtain ⟨v, hv⟩ := Option.isSome_iff_exists.1 (h.1 s.w.val s.w.isLt)
  exact ⟨v, hv, by simp [transfer, hv]⟩

/-- A cycle of a burst answers a next state in a state whose frame is complete. -/
theorem burstCycle_next {c : CycleIn} {s : State} (h : completeFrame s.fb) : ∃ t, burstCycle c s = .next t := by
  unfold burstCycle
  split
  · exact ⟨_, rfl⟩
  · split
    · obtain ⟨v, _, ht⟩ := transfer_complete h
        (fun u => endBurst c false (respond codeOK (BitVec.ofNat 32 Config.FRAME_WORDS) (dropFrame u)))
      exact ⟨_, ht⟩
    · split
      · exact ⟨_, rfl⟩
      · unfold burstGoesOn
        simp only
        split
        · have hf : completeFrame (if c.fsCe = true then { s with tmr := s.tmr + 1#13 } else s).fb := by split <;> exact h
          obtain ⟨v, _, ht⟩ := transfer_complete hf (fun u => { u with w := u.w + 1, snkValid := c.go })
          exact ⟨_, ht⟩
        · exact ⟨_, rfl⟩

/-! ## A run of cycles -/

@[simp] theorem runToResponse_nil (s : State) : runToResponse [] s = .next s := rfl

theorem runToResponse_resp {s : State} (h : s.seq = .resp) (cs : List CycleIn) : runToResponse cs s = .next s := by
  cases cs <;> simp [runToResponse, h]

theorem runToResponse_cons {c : CycleIn} {s t : State} (h : s.seq ≠ .resp) (hc : cycle c s = .next t) (cs : List CycleIn) :
    runToResponse (c :: cs) s = runToResponse cs t := by
  simp [runToResponse, h, hc]

/-- A run that goes on went through a next state of its first cycle. -/
theorem runToResponse_next {c : CycleIn} {cs : List CycleIn} {s t : State} (h : s.seq ≠ .resp)
    (hr : runToResponse (c :: cs) s = .next t) : ∃ u, cycle c s = .next u ∧ runToResponse cs u = .next t := by
  simp only [runToResponse, h, if_false] at hr
  cases hc : cycle c s with
  | next u => rw [hc] at hr; exact ⟨u, rfl, hr⟩
  | fault f => rw [hc] at hr; cases hr
  | refused f => rw [hc] at hr; cases hr

theorem runToResponse_append {cs : List CycleIn} : ∀ {bs : List CycleIn} {s t : State}, runToResponse bs s = .next t →
    runToResponse (bs ++ cs) s = runToResponse cs t
  | [], s, t, h => by
    cases h
    rfl
  | b :: bs, s, t, h => by
    by_cases hs : s.seq = .resp
    · rw [runToResponse_resp hs] at h
      cases h
      rw [runToResponse_resp hs, runToResponse_resp hs]
    · obtain ⟨u, hc, hu⟩ := runToResponse_next hs h
      rw [List.cons_append, runToResponse_cons hs hc]
      exact runToResponse_append hu

end Sys2Proof.Machine
end

