-- ==== Sys2Proof/Laws/Runs.lean ====
section
/-! SUPPORT. Runs of the signal level from a command in execution to its response: what they leave, whatever the latencies and the
sink are. -/

namespace Sys2Proof.Machine

/-- A command that has its response only waits to offer it. -/
theorem run_done : ∀ {cs : List CycleIn} {s t : State}, s.burst = false → s.rsp.isSome = true → s.seq ≠ .idle →
    (∀ x ∈ cs, x.rst = false) → runToResponse cs s = .next t → t.seq = .resp →
    { t with snkAbort := false } = { s with seq := .resp, snkAbort := false }
  | [], s, t, _, _, _, _, h, hr => by
    cases h
    simp [← hr]
  | c :: cs, s, t, hb, hp, hq, hc, h, hr => by
    have h0 := hc c (by simp)
    have h1 : ∀ x ∈ cs, x.rst = false := fun x hx => hc x (by simp [hx])
    cases hs : s.seq with
    | idle => exact absurd hs hq
    | resp =>
      rw [runToResponse_resp hs] at h
      cases h
      simp [← hs]
    | exec =>
      cases hg : c.go with
      | false =>
        rw [runToResponse_cons (by simp [hs]) (cycle_waits h0 hs hb hg)] at h
        exact run_done (s := { s with snkAbort := false }) hb hp (by simp [hs]) h1 h hr
      | true =>
        rw [runToResponse_cons (by simp [hs]) (cycle_responds h0 hs hb hg hp)] at h
        exact run_done (s := { s with snkAbort := false, seq := .resp }) hb hp (by simp) h1 h hr

/-- A command of one cycle, run to its response. -/
theorem run_short : ∀ {cs : List CycleIn} {s t : State}, s.burst = false → s.rsp = none → s.seq = .exec →
    decode s.cmd ≠ .ok .prod → (∀ x ∈ cs, x.rst = false) → runToResponse cs s = .next t → t.seq = .resp →
    ∃ cs' u, (∀ x ∈ cs', x.rst = false) ∧ runWord s.cmd { s with snkAbort := false } = .next u ∧
      runToResponse cs' u = .next t
  | [], s, t, _, _, hs, _, _, h, hr => by
    cases h
    rw [hs] at hr
    cases hr
  | c :: cs, s, t, hb, hp, hs, hd, hc, h, hr => by
    have h0 := hc c (by simp)
    have h1 : ∀ x ∈ cs, x.rst = false := fun x hx => hc x (by simp [hx])
    cases hg : c.go with
    | false =>
      rw [runToResponse_cons (by simp [hs]) (cycle_waits h0 hs hb hg)] at h
      exact run_short (s := { s with snkAbort := false }) hb hp hs hd h1 h hr
    | true =>
      obtain ⟨u, hu, hru⟩ := runToResponse_next (by simp [hs]) h
      exact ⟨cs, u, h1, (cycle_short h0 hs hb hg hp hd).symm.trans hu, hru⟩

/-- A PROD at sample k, run to its response. -/
theorem run_prod : ∀ {cs : List CycleIn} {s t : State}, s.burst = false → s.rsp = none → s.seq = .exec →
    decode s.cmd = .ok .prod → (∀ x ∈ cs, x.rst = false) → runToResponse cs s = .next t → t.seq = .resp →
    ∃ r, r = synth (441 - s.k.val) s.phase s.astep ∧
    { t with snkAbort := false } = { s with
      phase := r.2, fb := s.fb.writeRun (4 * s.k.val) (pairBytes r.1), fv := true, k := 0
      rsp := some ⟨codeOK, 0#32⟩, seq := .resp, snkAbort := false }
  | [], s, t, _, _, hs, _, _, h, hr => by
    cases h
    rw [hs] at hr
    cases hr
  | c :: cs, s, t, hb, hp, hs, hd, hc, h, hr => by
    have h0 := hc c (by simp)
    have h1 : ∀ x ∈ cs, x.rst = false := fun x hx => hc x (by simp [hx])
    cases hg : c.go with
    | false =>
      rw [runToResponse_cons (by simp [hs]) (cycle_waits h0 hs hb hg)] at h
      exact run_prod (s := { s with snkAbort := false }) hb hp hs hd h1 h hr
    | true =>
      rw [runToResponse_cons (by simp [hs]) (cycle_prod h0 hs hb hg hp hd)] at h
      have hk : s.k.val < 441 := s.k.isLt
      by_cases hl : s.k.val = 440
      · refine ⟨_, rfl, ?_⟩
        have hpc : prodCycle { s with snkAbort := false } = { s with
            phase := advance s.phase s.astep
            fb := s.fb.writeRun (4 * s.k.val) (pairBytes [pack (sin7 (advance s.phase s.astep))])
            k := 0, fv := true, rsp := some ⟨codeOK, 0#32⟩, seq := .resp, snkAbort := false } := by
          have : s.k.val = Config.N - 1 := hl
          simp only [prodCycle, this, if_true, respond, ← writeWord_pair]
        rw [hpc, runToResponse_resp rfl] at h
        cases h
        have e : 441 - s.k.val = 1 := by omega
        simp only [e, synth]
      · have hpc : prodCycle { s with snkAbort := false } = { s with
            phase := advance s.phase s.astep
            fb := s.fb.writeRun (4 * s.k.val) (pairBytes [pack (sin7 (advance s.phase s.astep))])
            k := s.k + 1, snkAbort := false } := by
          have : ¬ s.k.val = Config.N - 1 := hl
          simp only [prodCycle, this, if_false, ← writeWord_pair]
        rw [hpc] at h
        have hk1 : (s.k + 1 : Fin 441).val = s.k.val + 1 := by
          rw [Fin.val_add_one_of_lt]
          exact Fin.lt_def.2 (show s.k.val < 440 by omega)
        have e : 441 - s.k.val = (441 - (s.k.val + 1)) + 1 := by omega
        obtain ⟨r, hr1, hr2⟩ := run_prod (s := { s with
            phase := advance s.phase s.astep
            fb := s.fb.writeRun (4 * s.k.val) (pairBytes [pack (sin7 (advance s.phase s.astep))])
            k := s.k + 1, snkAbort := false }) hb hp hs hd h1 h hr
        refine ⟨_, rfl, ?_⟩
        rw [hr2, e, synth]
        simp only at hr1 ⊢
        rw [hk1] at hr1
        subst hr1
        have hw := writeRun_writeRun s.fb (4 * s.k.val) (pairBytes [pack (sin7 (advance s.phase s.astep))])
          (pairBytes (synth (441 - (s.k.val + 1)) (advance s.phase s.astep) s.astep).1)
        rw [pairBytes_length, ← pairBytes_append] at hw
        simp only [List.length_singleton, List.singleton_append] at hw
        have e4 : 4 * (s.k.val + 1) = 4 * s.k.val + 4 * 1 := by omega
        simp only [hk1, e4, hw]

/-- A burst's words in two parts. -/
theorem burstWords_append : ∀ (us vs : List Sample) (i : Nat),
    burstWords i (us ++ vs) = burstWords i us ++ burstWords (i + us.length) vs
  | [], _, _ => rfl
  | u :: us, vs, i => by
    simp [burstWords, burstWords_append us vs (i + 1), Nat.add_assoc, Nat.add_comm 1]

/-- A state of a running burst that began in `b` with the frame `ws`. -/
def InBurst (b : State) (ws : List Sample) (s : State) : Prop :=
  ∃ (w : Fin 882) (n : BitVec 13) (v a : Bool), s = { b with
    burst := true, w := w, tmr := n, snkValid := v, snkAbort := a, sinkLog := b.sinkLog ++ burstWords 0 (ws.take w.val) }

/-- A running burst, run to its response, ends as one of the outcomes of R95. -/
theorem run_burst {b : State} {ws : List Sample} (hq : b.seq = .exec)
    (h0 : b.burst = false ∧ b.w = 0 ∧ b.tmr = 0#13 ∧ b.snkValid = false) (hl : ws.length = 882) (hf : ∀ i < 882, b.fb.readWord i = ws[i]?) :
    ∀ {cs : List CycleIn} {s t : State}, InBurst b ws s → (∀ x ∈ cs, x.rst = false) → runToResponse cs s = .next t → t.seq = .resp →
      ∃ draw, { t with snkAbort := false, pins := b.pins } = { burstOutcome ws draw b with snkAbort := false }
  | [], s, t, hs, _, h, hr => by
    obtain ⟨w, n, v, a, rfl⟩ := hs
    cases h
    simp [hq] at hr
  | c :: cs, s, t, hs, hc, h, hr => by
    have hc0 := hc c (by simp)
    have h1 : ∀ x ∈ cs, x.rst = false := fun x hx => hc x (by simp [hx])
    have hsq : s.seq = .exec := by obtain ⟨w, n, v, a, rfl⟩ := hs; exact hq
    have hsb : s.burst = true := by obtain ⟨w, n, v, a, rfl⟩ := hs; rfl
    have take1 : ∀ (w : Fin 882) v, ws[w.val]? = some v → ws.take (w.val + 1) = ws.take w.val ++ [v] := by
      intro w v hv
      rw [List.take_add_one, hv]; rfl
    have hne : s.seq ≠ .resp := by simp [hsq]
    cases he : c.snkErr with
    | true =>
      rw [runToResponse_cons hne (cycle_sinkErr hc0 hsq hsb he)] at h
      have hd := run_done (by simp [endBurst]) (by simp [endBurst, fail, respond]) (by cases hgo : c.go <;> simp [endBurst, hgo]) h1 h hr
      obtain ⟨w, n, v, a, rfl⟩ := hs
      refine ⟨.sinkErr w, ?_⟩
      have := congrArg (fun x : State => { x with pins := b.pins }) hd
      simp only at this
      rw [this]
      simp [endBurst, fail, respond, dropFrame, sinkPut, burstOutcome, h0]
    | false =>
      by_cases hlw : (s.snkValid && c.snkReady && atLastWord s) = true
      · have hlw : (s.snkValid && c.snkReady && atLastWord s) = true := by simpa [and_assoc] using hlw
        have hcy := cycle_lastWord hc0 hsq hsb he hlw
        have hw : s.w.val = 881 := by simp [atLastWord] at hlw; exact hlw.2
        obtain ⟨w, n, v, a, rfl⟩ := hs
        obtain ⟨wv, hwv⟩ := w
        have hw : wv = 881 := hw
        subst hw
        have hx : ws[881]? = some ws[881] := by simp [hl]
        have hrd : b.fb.readWord 881 = some ws[881] := by rw [hf 881 (by omega), hx]
        simp only [transfer, hrd] at hcy
        rw [runToResponse_cons hne hcy] at h
        have hd := run_done (by simp [endBurst]) (by simp [endBurst, respond]) (by cases hgo : c.go <;> simp [endBurst, hgo]) h1 h hr
        refine ⟨.complete, ?_⟩
        have := congrArg (fun x : State => { x with pins := b.pins }) hd
        simp only at this
        rw [this]
        have ht : ws.take 881 ++ [ws[881]] = ws := by
          have := take1 ⟨881, by omega⟩ _ hx
          simp only at this
          rw [← this]; simp [← hl]
        have hb : burstWords 0 ws = burstWords 0 (ws.take 881) ++ [burstWord 881 ws[881]] := by
          conv_lhs => rw [← ht, burstWords_append]
          simp [burstWords, hl]
        simp [endBurst, respond, dropFrame, sinkPut, burstOutcome, h0, hb]
      · have hlw : (s.snkValid && c.snkReady && atLastWord s) = false := by simpa using hlw
        by_cases ht : (c.fsCe && s.tmr.toNat == Config.TIMEOUT_TICKS - 1) = true
        · have ht : (c.fsCe && s.tmr.toNat == Config.TIMEOUT_TICKS - 1) = true := by simpa using ht
          rw [runToResponse_cons hne (cycle_timeout hc0 hsq hsb he hlw ht)] at h
          have hd := run_done (by simp [endBurst]) (by simp [endBurst, fail, respond]) (by cases hgo : c.go <;> simp [endBurst, hgo]) h1 h hr
          obtain ⟨w, n, v, a, rfl⟩ := hs
          refine ⟨.timeout w, ?_⟩
          have := congrArg (fun x : State => { x with pins := b.pins }) hd
          simp only at this
          rw [this]
          simp [endBurst, fail, respond, dropFrame, sinkPut, burstOutcome, h0]
        · have ht : (c.fsCe && s.tmr.toNat == Config.TIMEOUT_TICKS - 1) = false := by simpa using ht
          have hcy := cycle_goesOn hc0 hsq hsb he hlw ht
          have hgo : ∃ u, burstGoesOn c { s with snkAbort := false } = .next u ∧ InBurst b ws u := by
            obtain ⟨w, n, v, a, rfl⟩ := hs
            simp only [burstGoesOn]
            have hx : ws[w.val]? = some (ws[w.val]'(by rw [hl]; exact w.isLt)) := by simp
            have hrd : b.fb.readWord w.val = some (ws[w.val]'(by rw [hl]; exact w.isLt)) := by rw [hf w.val w.isLt, hx]
            by_cases hv : (v && c.snkReady) = true
            · rw [if_pos hv]
              have hwn : w.val ≠ 881 := by
                intro h
                rw [Bool.and_eq_true] at hv
                simp [atLastWord, h, hv.1, hv.2] at hlw
              have hw1 : (w + 1 : Fin 882).val = w.val + 1 := by
                rw [Fin.val_add_one_of_lt]
                have := w.isLt
                exact Fin.lt_def.2 (show w.val < 881 by omega)
              have hbw : burstWords 0 (ws.take (w + 1 : Fin 882).val) = burstWords 0 (ws.take w.val) ++ [burstWord w.val (ws[w.val]'(by rw [hl]; exact w.isLt))] := by
                rw [hw1, take1 w _ hx, burstWords_append]
                have : min w.val ws.length = w.val := by rw [hl]; have := w.isLt; omega
                simp [burstWords, this]
              cases hfs : c.fsCe
              · simp only [transfer, Bool.false_eq_true, if_false, hrd]
                exact ⟨_, rfl, w + 1, n, c.go, false, by simp [sinkPut, hbw]⟩
              · simp only [transfer, if_true, hrd]
                exact ⟨_, rfl, w + 1, n + 1#13, c.go, false, by simp [sinkPut, hbw]⟩
            · rw [if_neg hv]
              cases hfs : c.fsCe
              · exact ⟨_, rfl, w, n, v || c.go, false, by simp⟩
              · exact ⟨_, rfl, w, n + 1#13, v || c.go, false, by simp⟩
          obtain ⟨u, hu, hin⟩ := hgo
          rw [runToResponse_cons hne (hcy.trans hu)] at h
          exact run_burst hq h0 hl hf hin h1 h hr

end Sys2Proof.Machine
end

