-- ==== Sys2Proof/Tests/Slice0.lean ====
section
/-! SUPPORT. Tests: expected results are the spec's worked examples and the vectors V1 to V14, P1 to P6, T1 to T7 of
95_test_vectors.md. Then a witness for the hypotheses of every statement. -/

namespace Sys2Proof.Tests

open Sys2Proof Sys2Proof.Machine

/-! Theorems that the kernel evaluates wait for each other, each in a thread with a stack of its own: one at a time here. -/

set_option Elab.async false

/-! ## Helpers -/

/-- The state a result goes on with. -/
def nextState (r : Result) : Option State :=
  match r with
  | .next t => some t
  | .fault _ => none
  | .refused _ => none

/-- The response a result leaves. -/
def answer (r : Result) : Option Response := (nextState r).bind (·.rsp)

/-- The response of one step that runs `word` with `dev_ready = 1`. -/
def stepAnswer (s : State) (word : CmdWord) : Option Response :=
  answer (step { s with inputs := [.command word ⟨true, .complete, true⟩] })

/-- A silent frame. -/
def silence : List Sample := List.replicate 441 0x8000#16

/-- The reset state holding a silent frame, the platform ready. -/
def framed : State :=
  { State.reset with fb := Memory.writeRun [] 0 (pairBytes silence), fv := true, pins := ⟨true, .complete, true⟩ }

/-- A block in a burst at word `w` after `ticks` pulses, with a word on offer. -/
def bursting (w : Fin 882) (ticks : BitVec 13) : State :=
  { framed with seq := .exec, burst := true, w := w, tmr := ticks, snkValid := true, cmd := encode .emit }

/-- A cycle in which nothing is asserted. -/
def quiet : CycleIn := ⟨false, false, 0#4, 0#32, 0#32, false, false, false, false, false, false⟩

/-! ## Well-formedness: each check refuses an ill-formed command (R61) -/

theorem test_wf_refuses_rdsr_4 : (Instr.rdsr 4#32).wellFormed = false := by decide
theorem test_wf_accepts_rdsr_3 : (Instr.rdsr 3#32).wellFormed = true := by decide
theorem test_wf_refuses_rdsr_alias : (Instr.rdsr 0x100#32).wellFormed = false := by decide
theorem test_wf_refuses_rdfb_882 : (Instr.rdfb 882#32).wellFormed = false := by decide
theorem test_wf_accepts_rdfb_881 : (Instr.rdfb 881#32).wellFormed = true := by decide

/-! ## Decoding: words written out from R55 and R57 -/

/-- A decoded command, if there is one. -/
def decoded (c : CmdWord) : Option Instr :=
  match decode c with
  | .ok i => some i
  | .error _ => none

theorem test_decode_nop : decoded (0b0000#4 ++ 0xDEADBEEF#32 ++ 0x12345678#32) = some .nop := by decide
theorem test_decode_setp : decoded (0b0001#4 ++ 0x43FA0000#32 ++ 0x3DCCCCCD#32) = some (.setp 0x43FA0000#32 0x3DCCCCCD#32) := by
  decide
theorem test_decode_step : decoded (0b0010#4 ++ 0#32 ++ 0#32) = some .step := by decide
theorem test_decode_prod : decoded (0b0011#4 ++ 0#32 ++ 0#32) = some .prod := by decide
theorem test_decode_emit : decoded (0b0100#4 ++ 0#32 ++ 0#32) = some .emit := by decide
theorem test_decode_rdsr : decoded (0b0101#4 ++ 3#32 ++ 0xFFFFFFFF#32) = some (.rdsr 3#32) := by decide
theorem test_decode_rdfb : decoded (0b0110#4 ++ 0x371#32 ++ 0#32) = some (.rdfb 881#32) := by decide
theorem test_decode_clrf : decoded (0b0111#4 ++ 0x1C#32 ++ 0#32) = some (.clrf 0x1C#32) := by decide
theorem test_decode_reserved_8 : decoded (0b1000#4 ++ 0#32 ++ 0#32) = none := by decide
theorem test_decode_reserved_15 : decoded 0xFFFFFFFFFFFFFFFFF#68 = none := by decide
theorem test_encode_setp : encode (.setp 0x43DC8000#32 0x3F000000#32) = 0x143DC80003F000000#68 := by decide
theorem test_table_word : decodeTableWord 72 0x60000037100000000 = some (.rdfb 881#32) := by decide
theorem test_table_word_too_wide : decodeTableWord 72 0x100000000000000000 = none := by decide

/-! Lines of P1 to P6 and the words given there (R66, R67). -/

theorem test_asm_setp :
    Asm.assemble ['S', 'E', 'T', 'P', ' ', '4', '4', '1', '.', '0', ',', ' ', '0', '.', '5', ' ', ';', 'x'] =
      some [0x143DC80003F000000#68] := by decide +kernel
theorem test_asm_setp_negative :
    Asm.assemble ['S', 'E', 'T', 'P', ' ', '-', '4', '4', '1', '.', '0', ',', ' ', '0', '.', '1'] =
      some [0x1C3DC80003DCCCCCD#68] := by decide +kernel
/-- P4, lines 6 and 14 (log 17). -/
theorem test_asm_setp_nan :
    Asm.assemble ['S', 'E', 'T', 'P', ' ', 'N', 'a', 'N', ',', ' ', '0', '.', '2', '5'] = some [0x17FC000003E800000#68] := by
  decide +kernel
theorem test_asm_setp_inf :
    Asm.assemble ['S', 'E', 'T', 'P', ' ', '+', 'i', 'n', 'f', ',', ' ', '0', '.', '2', '5'] =
      some [0x17F8000003E800000#68] := by decide +kernel
theorem test_asm_rdsr :
    Asm.assemble ['R', 'D', 'S', 'R', ' ', 'S', 'T', 'A', 'T', 'U', 'S'] = some [0x50000000300000000#68] := by decide +kernel
theorem test_asm_clrf :
    Asm.assemble ['C', 'L', 'R', 'F', ' ', 'T', 'O', 'U', 'T', '|', 'S', 'N', 'K', 'E', '|', 'P', 'E', 'R', 'R'] =
      some [0x70000001C00000000#68] := by decide +kernel
theorem test_asm_frame : Asm.assemble ['F', 'R', 'A', 'M', 'E'] = some [0x30000000000000000#68, 0x40000000000000000#68] := by
  decide +kernel

/-- R67: the two words of FRAME. -/
theorem test_frame_pseudo : framePseudo.map encode = [0x30000000000000000#68, 0x40000000000000000#68] := by decide

/-! ## The constants (R8, R9, R17) -/

theorem test_frame_sizes : Config.FRAME_WORDS = 2 * Config.N ∧ Config.FRAME_BYTES = Config.FRAME_WORDS * (Config.W / 8) := by
  decide
theorem test_timeout_ticks : Config.TIMEOUT_TICKS = Config.TIMEOUT_MS * Config.FS / 1000 := by decide
theorem test_scale_f : units Config.SCALE_F = Config.SCALE * 2 ^ 149 := by decide +kernel
theorem test_fs_f : units Config.FS_F = Config.FS * 2 ^ 149 := by decide +kernel
theorem test_n_f : units Config.N_F = Config.N * 2 ^ 149 := by decide +kernel

/-! ## Arithmetic: rows of V1, V2, V6, V7 and of R76 -/

/-- V1, the row of the smallest subnormal results: nothing is flushed. -/
theorem test_step_subnormal : stepOf 0x000116C2#32 = some 0x0000000A#32 := by decide +kernel
theorem test_step_largest : stepOf 0x7E22F982#32 = some 0x77BE37C5#32 := by decide +kernel
theorem test_wrap_tie : wrap 0xB4800000#32 = 0x40C90FDA#32 := by decide +kernel
theorem test_wrap_negative : wrap 0xC2C80000#32 = 0x3F07ED80#32 := by decide +kernel
theorem test_advance_second_frame : advance 0x40C90FB0#32 0x3C696EB5#32 = 0x3C691800#32 := by decide +kernel
theorem test_reduce_fold : reduce 0x4096CBE3#32 = 0xBFC90FD6#32 := by decide +kernel
theorem test_poly_half_pi : poly 0x3FC90FDB#32 = 0x3F7FF5B9#32 := by decide +kernel
theorem test_sin7_four : sin7 0x40800000#32 = 0xBF41BDC2#32 := by decide +kernel
theorem test_pack_negative_half : pack 0xBF000000#32 = 0x6001#16 := by decide +kernel
theorem test_pack_saturates : pack 0xC0400000#32 = 0x0000#16 := by decide +kernel

/-! ## Commands -/

/-- V12 line 2. -/
theorem test_nop : stepAnswer State.reset 0x0DEADBEEF12345678#68 = some ⟨0x0#4, 0#32⟩ := by decide

/-- R71, the example. -/
theorem test_setp : stepAnswer State.reset 0x143DC80003F000000#68 = some ⟨0x0#4, 0x3D80ADFD#32⟩ := by decide +kernel

/-- P4 line 6: the step is kept, the amplitude stored, PERR set. -/
theorem test_setp_nan :
    (nextState (execSetp 0x7FC00000#32 0x3E800000#32 State.reset)).map (fun t => (t.astep, t.amp, t.perr, t.rsp)) =
      some (0x3C696EB5#32, 0x3E800000#32, true, some ⟨0x6#4, 0x3C696EB5#32⟩) := by decide +kernel

/-- R72, the example. -/
theorem test_step : stepAnswer State.reset 0x20000000000000000#68 = some ⟨0x0#4, 0x3C696CAF#32⟩ := by decide +kernel

/-- V10, -441 Hz: the phase runs backwards. -/
theorem test_step_backwards :
    (nextState (execStep { State.reset with astep := 0xBD80ADFD#32 })).map (fun t => (t.phase, t.rsp)) =
      some (0x40C70D23#32, some ⟨0x0#4, 0xBD809854#32⟩) := by decide +kernel

/-- V3: the first six samples after reset. -/
theorem test_prod_first_samples :
    (synth 6 0x00000000#32 0x3C696EB5#32).1 = [0x80E9#16, 0x81D2#16, 0x82BC#16, 0x83A5#16, 0x848E#16, 0x8576#16] := by
  decide +kernel

/-- V3, V14: the phase after the frame, and its last four bytes. -/
theorem test_prod_frame :
    (nextState (execProd State.reset)).map (fun t => (t.phase, t.fb.drop 1760)) =
      some (0x40C90FB0#32, [(1760, 0x00#8), (1761, 0x80#8), (1762, 0x00#8), (1763, 0x80#8)]) := by decide +kernel

/-- V11: three words, the abort mark, the flag and the count. -/
theorem test_emit_timeout :
    (nextState (execEmit { framed with pins := ⟨true, .timeout 3, true⟩ })).map
        (fun t => (t.sinkLog, t.fv, t.tout, t.snke, t.rsp)) =
      some ([.word 0x8000#16 false false, .word 0x8000#16 true false, .word 0x8000#16 false false, .abort],
        false, true, false, some ⟨0x4#4, 3#32⟩) := by decide +kernel

/-- V11: EMIT without dev_ready keeps the frame. -/
theorem test_emit_not_ready :
    (nextState (execEmit { framed with pins := ⟨false, .complete, true⟩ })).map (fun t => (t.sinkLog, t.fv, t.rsp)) =
      some ([], true, some ⟨0x3#4, 0#32⟩) := by decide +kernel

/-- V12 line 6, and line 8: no aliasing. -/
theorem test_rdsr_status : stepAnswer State.reset 0x50000000300000000#68 = some ⟨0x0#4, 1#32⟩ := by decide
theorem test_rdsr_no_alias : stepAnswer State.reset 0x50000010000000000#68 = some ⟨0x1#4, 0#32⟩ := by decide

/-- V12 line 11: the index is checked before FV; R112: the zero-extended word. -/
theorem test_rdfb_index_first : stepAnswer State.reset 0x60000037200000000#68 = some ⟨0x1#4, 0#32⟩ := by decide
theorem test_rdfb_word : answer (execRdfb 881#32 framed) = some ⟨0x0#4, 0x8000#32⟩ := by decide +kernel

/-- R113, the example: STATUS 0x15, mask 4. -/
theorem test_clrf :
    stepAnswer { State.reset with tout := true, perr := true } 0x70000000400000000#68 = some ⟨0x0#4, 0x11#32⟩ := by decide
theorem test_clrf_ignored_bits :
    stepAnswer { State.reset with snke := true } 0x7FFFFFFF700000000#68 = some ⟨0x0#4, 0x9#32⟩ := by decide

/-- V12 line 12. -/
theorem test_reserved : stepAnswer State.reset 0x80000000000000000#68 = some ⟨0x1#4, 0#32⟩ := by decide

/-! ## The signal level -/

/-- T5: snk_err wins over the transfer of the last word. -/
theorem test_sink_error_wins :
    answer (cycle { quiet with snkErr := true, snkReady := true } (bursting 881 4409#13)) = some ⟨0x5#4, 881#32⟩ := by
  decide +kernel

/-- T3: the transfer of the last word wins over the timeout. -/
theorem test_completion_wins :
    answer (cycle { quiet with fsCe := true, snkReady := true } (bursting 881 4409#13)) = some ⟨0x0#4, 882#32⟩ := by
  decide +kernel

/-- T4: the timeout wins over an ordinary word. -/
theorem test_timeout_wins :
    answer (cycle { quiet with fsCe := true, snkReady := true } (bursting 500 4409#13)) = some ⟨0x4#4, 500#32⟩ := by
  decide +kernel

/-! ## Witnesses: states and operands that meet the hypotheses of each statement -/

theorem silence_length : silence.length = Config.N := List.length_replicate

theorem framed_complete : completeFrame framed.fb := completeFrame_pairs [] silence_length

theorem framed_wf : framed.fb.wf :=
  Memory.writeRun_wf Memory.wf_nil (by rw [pairBytes_length, silence_length]; decide)

theorem framed_inv : Inv framed where
  phase := by decide
  astep := by decide
  wf := framed_wf
  noFrame := by decide
  frame := fun _ => framed_complete
  seqExec := by decide
  burstFrame := by decide
  burstIdle := by decide
  sampleIdle := by decide
  tmrBound := by decide
  abortIdle := by decide

theorem witness_SpecWordsDecode : 8 ≤ (8#4).toNat ∧ 8 ≤ (15#4).toNat := by decide

theorem witness_OpcodeDecidesDecoding :
    (0x7FFFFFFFFFFFFFFFF#68).toNat < 8 * 2 ^ 64 ∧ 8 * 2 ^ 64 ≤ (0x80000000000000000#68).toNat := by decide

theorem witness_UnusedOperandBitsIgnored :
    (7#4).toNat < 8 ∧ 4#4 ∈ [0#4, 2#4, 3#4, 4#4] ∧ 6#4 ∈ [5#4, 6#4] ∧
      ∀ n ∈ [2, 3, 4], (0xFFFFFFE3#32).getLsbD n = (0#32).getLsbD n := by decide

theorem witness_StepRunsDecodedCommand :
    ∃ s : State, s.seq = .idle ∧ s.inputs = .command 0x00000000000000000#68 ⟨true, .complete, true⟩ :: [] ∧
      decode 0x00000000000000000#68 = .ok .nop :=
  ⟨{ State.reset with inputs := [.command 0#68 ⟨true, .complete, true⟩] }, rfl, rfl, rfl⟩

theorem witness_StepRunsDecodedCommand_busy :
    ∃ s : State, s.seq ≠ .idle ∧ s.inputs = .command 0#68 ⟨true, .complete, true⟩ :: [] :=
  ⟨{ State.reset with seq := .resp, inputs := [.command 0#68 ⟨true, .complete, true⟩] }, by decide, rfl⟩

theorem witness_FetchWordRunsNext :
    (0x7FFFFFFFF00000000 : Nat) < 2 ^ 68 ∧ decodeTableWord 72 0x7FFFFFFFF00000000 = some (.clrf 0xFFFFFFFF#32) := by decide

theorem witness_ReservedOpcodesRefused :
    ∃ s : State, s.seq = .idle ∧ s.inputs = .command 0x80000000000000000#68 ⟨true, .complete, true⟩ :: [] ∧
      8 * 2 ^ 64 ≤ (0x80000000000000000#68).toNat :=
  ⟨{ State.reset with inputs := [.command 0x80000000000000000#68 ⟨true, .complete, true⟩] }, rfl, rfl, by decide⟩

theorem witness_OutOfRangeIndicesRefused : 4 ≤ (4#32).toNat ∧ 882 ≤ (882#32).toNat := by decide

theorem witness_RdfbAnswersFrameWord :
    882 ≤ (882#32).toNat ∧ ((881#32).toNat < 882 ∧ State.reset.fv = false) ∧
      (881#32).toNat < 882 ∧ framed.fv = true ∧ framed.fb.readWord (881#32).toNat = some 0x8000#16 := by decide +kernel

theorem witness_ByteViewLittleEndian : framed.fb.readWord 881 = some 0x8000#16 := by decide +kernel

theorem witness_SetpSetsParameters :
    (isFinite 0x7E22F982#32 = true ∧ isFinite (fmul 0x40C90FDB#32 0x7E22F982#32) = true ∧
        isFinite (fdiv (fmul 0x40C90FDB#32 0x7E22F982#32) 0x472C4400#32) = true) ∧
      isFinite (fmul 0x40C90FDB#32 0x7E22F983#32) = false ∧ isFinite 0x7F800000#32 = false := by decide +kernel

theorem witness_EmitRefusals :
    State.reset.fv = false ∧ framed.fv = true ∧
      ({ framed with pins := ⟨false, .complete, true⟩ } : State).pins.devReady = false := by decide

theorem witness_EmitCompleteSendsFrame :
    framed.fv = true ∧ framed.fb.wf ∧ completeFrame framed.fb ∧ framed.pins.devReady = true ∧
      framed.pins.draw = .complete := ⟨rfl, framed_wf, framed_complete, rfl, rfl⟩

theorem witness_EmitFailureDropsFrame :
    ∃ s : State, s.fv = true ∧ s.fb.wf ∧ completeFrame s.fb ∧ s.pins.devReady = true ∧ s.pins.draw = .sinkErr 0 :=
  ⟨{ framed with pins := ⟨true, .sinkErr 0, true⟩ }, rfl, framed_wf, framed_complete, rfl, rfl⟩

theorem witness_EmitFailureDropsFrame_timeout_last :
    ∃ s : State, s.fv = true ∧ s.fb.wf ∧ completeFrame s.fb ∧ s.pins.devReady = true ∧ s.pins.draw = .timeout 881 :=
  ⟨{ framed with pins := ⟨true, .timeout 881, true⟩ }, rfl, framed_wf, framed_complete, rfl, rfl⟩

theorem witness_EmitUnfinishedWaits :
    ∃ s : State, s.fv = true ∧ s.fb.wf ∧ completeFrame s.fb ∧ s.pins.devReady = true ∧
      s.pins.draw = .unfinished 881 4409 true :=
  ⟨{ framed with pins := ⟨true, .unfinished 881 4409 true, true⟩ }, rfl, framed_wf, framed_complete, rfl, rfl⟩

theorem witness_TransientFailureIsolation :
    framed.fv = true ∧ framed.fb.wf ∧ completeFrame framed.fb ∧ framed.pins.devReady = true ∧
      (∀ k ticks o, BurstDraw.timeout 300 ≠ .unfinished k ticks o) ∧
      ∀ k ticks o, BurstDraw.complete ≠ .unfinished k ticks o :=
  ⟨rfl, framed_wf, framed_complete, rfl, by simp, by simp⟩

theorem witness_AmplitudeNotApplied :
    (∃ t, exec .prod State.reset = .next t) ∧ (∀ idx, Instr.prod ≠ .rdsr idx) ∧ (∀ f b, Instr.prod ≠ .setp f b) ∧
      (∃ t, exec (.setp 0#32 1#32) State.reset = .next t) ∧ ∀ idx, Instr.setp 0#32 1#32 ≠ .rdsr idx :=
  ⟨⟨_, rfl⟩, by simp, by simp, ⟨_, rfl⟩, by simp⟩

theorem witness_UnitsAreValues : isFinite 0x7F7FFFFF#32 = true := by decide

theorem witness_RoundingIsNearestEven : 0 < 1 := by decide

theorem witness_SumsRoundOnce :
    isFinite 0x7F7FFFFF#32 = true ∧ isFinite 0xFF7FFFFF#32 = true ∧ isFinite 0x80000000#32 = true ∧
      val 0x80000000#32 + val 0x80000000#32 = 0 ∧ val 0x80000000#32 - val 0x00000000#32 = 0 := by
  decide +kernel

theorem witness_ProductsRoundOnce :
    isFinite 0x7F7FFFFF#32 = true ∧ isFinite 0x80000000#32 = true ∧ val 0x7F7FFFFF#32 * val 0x80000000#32 = 0 := by
  decide +kernel

theorem witness_QuotientsRoundOnce :
    isFinite 0x80000000#32 = true ∧ isFinite 0x00000001#32 = true ∧ val 0x00000001#32 ≠ 0 ∧ val 0x80000000#32 = 0 := by
  decide +kernel

theorem witness_ComparisonsCompareValues : isFinite 0x80000000#32 = true ∧ isFinite 0x00000001#32 = true := by decide

theorem witness_AdvanceIsFlooredRemainder : legalPhase 0x40C90FDA#32 = true ∧ isFinite 0xFF7FFFFF#32 = true := by decide

theorem witness_ForwardAdvanceIsExact :
    legalPhase 0x40C90FDA#32 = true ∧ isFinite 0xC0C90FDA#32 = true ∧ 0 ≤ val (fadd 0x40C90FDA#32 0xC0C90FDA#32) := by
  decide +kernel

theorem witness_PhaseStaysInRange :
    legalPhase State.reset.phase = true ∧ isFinite State.reset.astep = true ∧
      ∀ i ∈ [Instr.setp 0xFE22F982#32 0#32, .step], i = .step ∨ ∃ f b, i = .setp f b :=
  ⟨by decide, by decide, by simp⟩

theorem witness_HugeStepFreezesPhase :
    legalPhase 0x40C90FDA#32 = true ∧ isFinite 0xCD800000#32 = true ∧ (2 : ℚ) ^ 28 ≤ |val 0xCD800000#32| := by
  decide +kernel

theorem witness_ReduceIsExact :
    (legalPhase 0x3FC90FDA#32 = true ∧ val 0x3FC90FDA#32 < val 0x3FC90FDB#32) ∧
      (legalPhase 0x3FC90FDB#32 = true ∧ val 0x3FC90FDB#32 ≤ val 0x3FC90FDB#32 ∧ val 0x3FC90FDB#32 < val 0x4096CBE4#32) ∧
      legalPhase 0x4096CBE4#32 = true ∧ val 0x4096CBE4#32 ≤ val 0x4096CBE4#32 := by decide +kernel

/-- R75: the fold of PI_F is zero. -/
theorem witness_SineIsRoundedPolynomial :
    legalPhase 0x40C90FDA#32 = true ∧ legalPhase 0x40490FDB#32 = true ∧ val (reduce 0x40490FDB#32) = 0 := by decide +kernel

theorem witness_SineFitsSample : legalPhase 0x3FC8F108#32 = true := by decide

theorem witness_PackTruncatesTowardZero :
    isFinite 0xC0400000#32 = true ∧ isFinite (fmul 0xC0400000#32 0x467FFC00#32) = true := by decide +kernel

theorem witness_SamplesStayInRange :
    legalPhase 0x3FC8F108#32 = true ∧ isFinite 0xBF800000#32 = true ∧ |val 0xBF800000#32| ≤ 1 ∧
      pack 0xBF800000#32 = 0x4001#16 ∧ pack 0x3F800000#32 = 0xBFFF#16 := by decide +kernel

theorem witness_ResetFromAnyState :
    ({ bursting 3 7#13 with inputs := [.rst] } : State).inputs = .rst :: [] ∧ ({ quiet with rst := true } : CycleIn).rst = true :=
  ⟨rfl, rfl⟩

theorem witness_StepKeepsInvariant : Inv framed ∧ ∃ t, step framed = .next t := ⟨framed_inv, _, rfl⟩

theorem witness_StepNeverStops : Inv framed := framed_inv

/-- An idle block that keeps an old response. -/
theorem witness_EveryCommandAnswers :
    Inv { framed with rsp := some ⟨0x0#4, 7#32⟩ } ∧ ({ framed with rsp := some ⟨0x0#4, 7#32⟩ } : State).seq = .idle ∧
      decode 0x40000000000000000#68 = .ok .emit :=
  ⟨{ framed_inv with }, rfl, rfl⟩

theorem witness_AccessMatrix : ∃ t, exec .step State.reset = .next t := ⟨_, rfl⟩

theorem witness_StickyFlags : ∃ t, exec (.clrf 0x1C#32) State.reset = .next t := ⟨_, rfl⟩

theorem witness_RefusalsChangeNothing :
    ∃ t, exec (.rdsr 4#32) State.reset = .next t ∧ State.reset.rsp = none ∧ t.rsp = some ⟨0x1#4, 0#32⟩ :=
  ⟨_, rfl, rfl, rfl⟩

theorem witness_SignalRunRefinesCommand :
    Inv framed ∧ framed.seq = .idle ∧
      ({ quiet with cmdValid := true } : CycleIn).rst = false ∧ ({ quiet with cmdValid := true } : CycleIn).cmdValid = true ∧
      (∀ x ∈ [{ quiet with go := true }], x.rst = false) ∧
      ∃ t, runToResponse ({ quiet with cmdValid := true } :: [{ quiet with go := true }]) framed = .next t ∧
        t.seq = .resp :=
  ⟨framed_inv, rfl, rfl, rfl, by simp [quiet], _, rfl, rfl⟩

theorem witness_EveryOutcomeHasARun :
    Inv framed ∧ framed.seq = .idle ∧ framed.fv = true ∧
      (∃ c : CycleIn, c.rst = false ∧ c.cmdValid = true ∧ c.cmdOp = 0x4#4 ∧ c.devReady = true) ∧
      ∀ k ticks o, BurstDraw.timeout 881 ≠ .unfinished k ticks o :=
  ⟨framed_inv, rfl, rfl, ⟨{ quiet with cmdValid := true, cmdOp := 0x4#4, devReady := true }, rfl, rfl, rfl, rfl⟩, nofun⟩

theorem witness_BurstEndsByPulse4410 :
    (bursting 500 4409#13).seq = .exec ∧ (bursting 500 4409#13).burst = true ∧ completeFrame (bursting 500 4409#13).fb ∧
      (bursting 500 4409#13).tmr.toNat < 4410 ∧ (∀ x ∈ [{ quiet with fsCe := true }], x.rst = false) ∧
      4410 ≤ (bursting 500 4409#13).tmr.toNat + ([{ quiet with fsCe := true }].filter (fun x => x.fsCe)).length :=
  ⟨rfl, rfl, framed_complete, by decide, by simp [quiet], by decide⟩

theorem witness_StoppedClockHangsBurst :
    (bursting 0 0#13).seq = .exec ∧ (bursting 0 0#13).burst = true ∧
      ∀ x ∈ [quiet, quiet], x.rst = false ∧ x.fsCe = false ∧ x.snkReady = false ∧ x.snkErr = false :=
  ⟨rfl, rfl, by simp [quiet]⟩

theorem witness_BurstTies :
    quiet.rst = false ∧ (bursting 881 4409#13).seq = .exec ∧ (bursting 881 4409#13).burst = true ∧
      ({ quiet with snkErr := true, snkReady := true, fsCe := true } : CycleIn).snkErr = true ∧
      (quiet.snkErr = false ∧ (bursting 881 4409#13).snkValid = true ∧ ({ quiet with snkReady := true } : CycleIn).snkReady = true ∧
        (bursting 881 4409#13).w.val = 881 ∧ (bursting 881 4409#13).fb.readWord 881 = some 0x8000#16) ∧
      ¬((bursting 880 4409#13).snkValid = true ∧ quiet.snkReady = true ∧ (bursting 880 4409#13).w.val = 881) ∧
      ({ quiet with fsCe := true } : CycleIn).fsCe = true ∧ (bursting 880 4409#13).tmr = 4409#13 := by decide +kernel

theorem witness_OfferHeldUntilTransfer :
    quiet.rst = false ∧ (bursting 881 4408#13).seq = .exec ∧ (bursting 881 4408#13).burst = true ∧
      (bursting 881 4408#13).snkValid = true ∧ ({ quiet with fsCe := true } : CycleIn).snkReady = false ∧
      ({ quiet with fsCe := true } : CycleIn).snkErr = false ∧
      ¬(({ quiet with fsCe := true } : CycleIn).fsCe = true ∧ (bursting 881 4408#13).tmr = 4409#13) := by decide +kernel

theorem witness_OfferHeldUntilTransfer_taken :
    ({ quiet with snkReady := true } : CycleIn).snkReady = true ∧ ({ quiet with snkReady := true } : CycleIn).snkErr = false ∧
      ((bursting 881 4409#13).fb.readWord 881 = some 0x8000#16 ∧ (bursting 881 4409#13).w.val = 881) ∧
      (bursting 880 4409#13).fb.readWord 880 = some 0x8000#16 ∧ (bursting 880 4409#13).w.val < 881 ∧
      ¬(({ quiet with snkReady := true } : CycleIn).fsCe = true ∧ (bursting 880 4409#13).tmr = 4409#13) := by decide +kernel

theorem witness_AbortPulseLastsOneCycle :
    ∃ t, cycle { quiet with snkErr := true } (bursting 0 0#13) = .next t ∧ t.snkAbort = true ∧
      ∃ u, cycle quiet t = .next u :=
  ⟨_, rfl, rfl, _, rfl⟩

theorem witness_ResponseHeldUntilTaken :
    quiet.rst = false ∧ ({ framed with seq := .resp } : State).seq = .resp ∧ quiet.rspReady = false ∧
      ({ quiet with rspReady := true } : CycleIn).rspReady = true ∧ (bursting 0 0#13).seq ≠ .idle ∧
      ∃ t, cycle quiet (bursting 0 0#13) = .next t := ⟨rfl, rfl, rfl, rfl, by decide, _, rfl⟩

theorem witness_CycleKeepsRegistersLegal :
    legalPhase (bursting 0 4409#13).phase = true ∧ isFinite (bursting 0 4409#13).astep = true ∧
      (bursting 0 4409#13).fb.wf ∧ (bursting 0 4409#13).tmr.toNat < 4410 ∧ ∃ t, cycle quiet (bursting 0 4409#13) = .next t :=
  ⟨by decide, by decide, framed_wf, by decide, _, rfl⟩

end Sys2Proof.Tests
end

section
/-! The value of a pattern (R12) as a signed grid point, and R16. -/

namespace Sys2Proof.Machine

/-- The value of R12 in units of 2^-149. -/
theorem val_eq_units (u : Word) : val u = (units u : ℚ) * (2 : ℚ) ^ (-149 : ℤ) := by
  have hsign : ∀ m : ℕ, (((if u.msb then -(m : ℤ) else (m : ℤ)) : ℤ) : ℚ) = (-1) ^ u.msb.toNat * (m : ℚ) := by
    intro m
    cases u.msb <;> simp
  unfold val units mag
  rw [hsign]
  split
  · rfl
  · rename_i he
    have hexp : ((expField u : ℤ) - 150) = ((expField u - 1 : ℕ) : ℤ) + (-149 : ℤ) := by omega
    rw [hexp, zpow_add₀ two_ne_zero, zpow_natCast]
    push_cast
    ring

/-- The sign of a real as a factor. -/
def signFactor (neg : Bool) : ℚ := if neg then -1 else 1

/-- The value of a pattern from its sign and its body. -/
theorem val_eq_signFactor (u : Word) : val u = signFactor u.msb * (magOf (body u) : ℚ) * (2 : ℚ) ^ (-149 : ℤ) := by
  rw [val_eq_units, units, mag_eq]
  cases u.msb <;> simp [signFactor]

theorem unit_pos : (0 : ℚ) < (2 : ℚ) ^ (-149 : ℤ) := by positivity

theorem val_lt_iff (a b : Word) : val a < val b ↔ units a < units b := by
  rw [val_eq_units, val_eq_units, mul_lt_mul_iff_left₀ unit_pos, Int.cast_lt]

theorem val_eq_zero_iff (u : Word) : val u = 0 ↔ mag u = 0 := by
  rw [val_eq_units, mul_eq_zero, or_iff_left unit_pos.ne', Int.cast_eq_zero, units]
  split <;> omega

/-- Settles O26: an exponent field e > 0 scales the significand by 2^(e-150) = 2^(e-1) * 2^-149. -/
theorem unitsAreValues : Obligations.UnitsAreValues := fun u _ => val_eq_units u

/-- Settles O31: values are a positive multiple of the units that the model compares. -/
theorem comparisonsCompareValues : Obligations.ComparisonsCompareValues := by
  refine ⟨fun a b _ _ => ⟨?_, ?_⟩, by decide, by decide, by decide, by decide⟩
  · rw [flt, decide_eq_true_iff, val_lt_iff]
  · rw [fge, decide_eq_true_iff, ← not_lt, ← not_lt, val_lt_iff]

end Sys2Proof.Machine
end

section
/-! Rounding to the grid of binary32 magnitudes (R13): the patterns, read as numbers, count the grid points upwards, and
`rndRaw` picks the one whose half-way points to its two neighbours enclose the exact value. -/

namespace Sys2Proof.Machine

/-- The grid point that the rounding names by a binade `sh` and a significand `r`, carry to the next binade included. -/
theorem magOf_significand {sh r : Nat} (hr : r ≤ 2 ^ 24) (hn : sh = 0 ∨ 2 ^ 23 ≤ r) :
    magOf (sh * 2 ^ 23 + r) = r * 2 ^ sh := by
  unfold magOf
  rcases Nat.lt_or_ge r (2 ^ 23) with hlow | hlow
  · obtain rfl : sh = 0 := by omega
    rw [if_pos (by omega)]
    omega
  · rcases Nat.lt_or_eq_of_le hr with hlt | rfl
    · have he : (sh * 2 ^ 23 + r) / 2 ^ 23 = sh + 1 := by omega
      have hf : 2 ^ 23 + (sh * 2 ^ 23 + r) % 2 ^ 23 = r := by omega
      rw [he, hf, if_neg (by omega), Nat.add_sub_cancel]
    · have he : (sh * 2 ^ 23 + 2 ^ 24) / 2 ^ 23 = sh + 2 := by omega
      have hf : 2 ^ 23 + (sh * 2 ^ 23 + 2 ^ 24) % 2 ^ 23 = 2 ^ 23 := by omega
      rw [he, hf, if_neg (by omega), show sh + 2 - 1 = sh + 1 by omega, Nat.pow_succ]
      omega

/-- The next grid point is at least one unit of the binade away. -/
theorem magOf_significand_succ {sh r : Nat} (hr : r ≤ 2 ^ 24) (hn : sh = 0 ∨ 2 ^ 23 ≤ r) :
    (r + 1) * 2 ^ sh ≤ magOf (sh * 2 ^ 23 + r + 1) := by
  rcases Nat.lt_or_eq_of_le hr with hlt | rfl
  · rw [Nat.add_assoc, magOf_significand hlt (by omega)]
  · have hcarry : sh * 2 ^ 23 + 2 ^ 24 + 1 = (sh + 1) * 2 ^ 23 + (2 ^ 23 + 1) := by omega
    rw [hcarry, magOf_significand (by omega) (by omega), Nat.pow_succ]
    omega

/-- Above the lowest binade the exact value reaches the foot of its binade. -/
theorem binade_le {n d : Nat} (hd : 0 < d) (hsh : Nat.log2 (n / d) - 23 ≠ 0) :
    d * (2 ^ 23 * 2 ^ (Nat.log2 (n / d) - 23)) ≤ n := by
  have hq : n / d ≠ 0 := by
    intro h
    rw [h, Nat.log2_zero] at hsh
    exact hsh rfl
  have hfoot : 2 ^ 23 * 2 ^ (Nat.log2 (n / d) - 23) = 2 ^ Nat.log2 (n / d) := by
    rw [← Nat.pow_add]
    congr 1
    omega
  rw [hfoot, Nat.mul_comm]
  exact (Nat.le_div_iff_mul_le hd).1 (Nat.log2_self_le hq)

/-- The exact value is at most half-way from its rounding to the next grid point; half-way the rounding is even. -/
theorem rndRaw_upper {n d : Nat} (hd : 0 < d) :
    2 * n ≤ d * (magOf (rndRaw n d) + magOf (rndRaw n d + 1)) ∧
      (2 * n = d * (magOf (rndRaw n d) + magOf (rndRaw n d + 1)) → rndRaw n d % 2 = 0) := by
  obtain ⟨hr, hn⟩ := shift_bounds (n := n) hd
  unfold rndRaw
  generalize hsh : Nat.log2 (n / d) - 23 = sh at *
  have hdsh : 0 < d * 2 ^ sh := by positivity
  have hnear := (roundDiv_near n hdsh).1
  have htie := roundDiv_tie (n := n) hdsh
  generalize roundDiv n (d * 2 ^ sh) = r at *
  have hgrid := magOf_significand hr (by omega : sh = 0 ∨ 2 ^ 23 ≤ r)
  have hnext := magOf_significand_succ hr (by omega : sh = 0 ∨ 2 ^ 23 ≤ r)
  rw [hgrid]
  have hhalf : 2 * (d * 2 ^ sh * r) + d * 2 ^ sh ≤ d * (r * 2 ^ sh + magOf (sh * 2 ^ 23 + r + 1)) :=
    calc 2 * (d * 2 ^ sh * r) + d * 2 ^ sh = d * (r * 2 ^ sh + (r + 1) * 2 ^ sh) := by ring
      _ ≤ _ := Nat.mul_le_mul_left d (Nat.add_le_add_left hnext _)
  refine ⟨hnear.trans hhalf, fun heq => ?_⟩
  have := htie (.inl (by omega))
  omega

/-- The exact value is at least half-way to its rounding from the grid point below; half-way the rounding is even. -/
theorem rndRaw_lower {n d p : Nat} (hd : 0 < d) (hp : rndRaw n d = p + 1) :
    d * (magOf p + magOf (p + 1)) ≤ 2 * n ∧ (d * (magOf p + magOf (p + 1)) = 2 * n → (p + 1) % 2 = 0) := by
  obtain ⟨hr, hn⟩ := shift_bounds (n := n) hd
  have hfoot := binade_le (n := n) hd
  unfold rndRaw at hp
  generalize hsh : Nat.log2 (n / d) - 23 = sh at *
  have hdsh : 0 < d * 2 ^ sh := by positivity
  have hnear := (roundDiv_near n hdsh).2
  have htie := roundDiv_tie (n := n) hdsh
  generalize roundDiv n (d * 2 ^ sh) = r at *
  have hgrid := magOf_significand hr (by omega : sh = 0 ∨ 2 ^ 23 ≤ r)
  by_cases hlow : sh ≠ 0 ∧ r = 2 ^ 23
  · obtain ⟨hsh0, rfl⟩ := hlow
    have hlt : magOf p < magOf (p + 1) := magOf_succ_lt p
    have hle : d * magOf (p + 1) ≤ n := by
      rw [← hp, hgrid]
      exact hfoot hsh0
    have : d * (magOf p + magOf (p + 1)) < 2 * n := by nlinarith
    exact ⟨this.le, fun heq => absurd heq this.ne⟩
  · obtain ⟨r, rfl⟩ : ∃ k, r = k + 1 := ⟨r - 1, by omega⟩
    obtain rfl : p = sh * 2 ^ 23 + r := by omega
    have hbelow := magOf_significand (sh := sh) (r := r) (by omega) (by omega)
    rw [Nat.add_assoc, hbelow, hgrid]
    have hhalf : d * (r * 2 ^ sh + (r + 1) * 2 ^ sh) + d * 2 ^ sh = 2 * (d * 2 ^ sh * (r + 1)) := by ring
    refine ⟨by omega, fun heq => ?_⟩
    have := htie (.inr (by omega))
    omega

/-- Up to half-way from `m` to the next point `m'` no point from `m'` on is nearer than `m`, and one is as near only half-way. -/
theorem abs_sub_le_of_le_mid {x m m' q : ℚ} (hm : m < m') (hq : m' ≤ q) (hx : 2 * x ≤ m + m') :
    |m - x| ≤ |q - x| ∧ (|q - x| = |m - x| → 2 * x = m + m') := by
  rw [abs_of_nonneg (show 0 ≤ q - x by linarith)]
  refine ⟨abs_le.2 ⟨by linarith, by linarith⟩, fun heq => ?_⟩
  rcases abs_cases (m - x) with ⟨h, _⟩ | ⟨h, _⟩ <;> linarith

/-- The mirror image: from half-way up to `m` from a point below it. -/
theorem abs_sub_le_of_mid_le {x m m' q : ℚ} (hm : m' < m) (hq : q ≤ m') (hx : m' + m ≤ 2 * x) :
    |m - x| ≤ |q - x| ∧ (|q - x| = |m - x| → m' + m = 2 * x) := by
  obtain ⟨hle, htie⟩ := abs_sub_le_of_le_mid (x := -x) (neg_lt_neg hm) (neg_le_neg hq) (by linarith)
  rw [neg_sub_neg, neg_sub_neg, abs_sub_comm x, abs_sub_comm x] at hle htie
  exact ⟨hle, fun heq => by linarith [htie heq]⟩

/-- `rndRaw_upper` as a fact about the quotient. -/
theorem rndRaw_upper_rat {n d : Nat} (hd : 0 < d) :
    2 * ((n : ℚ) / d) ≤ magOf (rndRaw n d) + magOf (rndRaw n d + 1) ∧
      (2 * ((n : ℚ) / d) = magOf (rndRaw n d) + magOf (rndRaw n d + 1) → rndRaw n d % 2 = 0) := by
  have hdq : (0 : ℚ) < d := by exact_mod_cast hd
  obtain ⟨hmid, htie⟩ := rndRaw_upper (n := n) hd
  rw [← mul_div_assoc, div_le_iff₀' hdq, div_eq_iff hdq.ne', mul_comm _ (d : ℚ)]
  exact ⟨by exact_mod_cast hmid, fun h => htie (by exact_mod_cast h)⟩

/-- `rndRaw_lower` as a fact about the quotient. -/
theorem rndRaw_lower_rat {n d p : Nat} (hd : 0 < d) (hp : rndRaw n d = p + 1) :
    (magOf p : ℚ) + magOf (p + 1) ≤ 2 * (n / d) ∧ ((magOf p : ℚ) + magOf (p + 1) = 2 * (n / d) → (p + 1) % 2 = 0) := by
  have hdq : (0 : ℚ) < d := by exact_mod_cast hd
  obtain ⟨hmid, htie⟩ := rndRaw_lower hd hp
  rw [← mul_div_assoc, le_div_iff₀' hdq, eq_div_iff hdq.ne', mul_comm _ (d : ℚ)]
  exact ⟨by exact_mod_cast hmid, fun h => htie (by exact_mod_cast h)⟩

theorem magOf_cast_mono {p q : Nat} (h : p ≤ q) : (magOf p : ℚ) ≤ magOf q := by
  exact_mod_cast magOf_strictMono.monotone h

/-- No grid point is nearer to the exact value than its rounding, and another one as near means that the rounding is even
(R13). -/
theorem rndRaw_nearest {n d : Nat} (hd : 0 < d) (q : Nat) :
    |(magOf (rndRaw n d) : ℚ) - n / d| ≤ |(magOf q : ℚ) - n / d| ∧
      (q ≠ rndRaw n d → |(magOf q : ℚ) - n / d| = |(magOf (rndRaw n d) : ℚ) - n / d| → rndRaw n d % 2 = 0) := by
  have hlt (p : Nat) : (magOf p : ℚ) < magOf (p + 1) := by exact_mod_cast magOf_succ_lt p
  rcases lt_trichotomy q (rndRaw n d) with hbelow | rfl | habove
  · obtain ⟨p, hp⟩ : ∃ p, rndRaw n d = p + 1 := ⟨rndRaw n d - 1, by omega⟩
    obtain ⟨hmid, heven⟩ := rndRaw_lower_rat hd hp
    rw [hp] at hbelow ⊢
    obtain ⟨hle, htie⟩ := abs_sub_le_of_mid_le (hlt p) (magOf_cast_mono (Nat.lt_succ_iff.1 hbelow)) hmid
    exact ⟨hle, fun _ heq => heven (htie heq)⟩
  · exact ⟨le_rfl, fun h => absurd rfl h⟩
  · obtain ⟨hmid, heven⟩ := rndRaw_upper_rat (n := n) hd
    obtain ⟨hle, htie⟩ := abs_sub_le_of_le_mid (hlt _) (magOf_cast_mono (Nat.succ_le_of_lt habove)) hmid
    exact ⟨hle, fun _ heq => heven (htie heq)⟩

/-- The half-way point between the largest finite magnitude and the next power of two, in units (R13). -/
theorem magOf_overflow_mid : magOf 0x7F7FFFFF + magOf 0x7F800000 = 2 * ((2 ^ 25 - 1) * 2 ^ 252) := by decide +kernel

/-- The rounding overflows exactly from half-way up: the pattern of the largest finite magnitude is odd (R13). -/
theorem overflow_le_rndRaw_iff {n d : Nat} (hd : 0 < d) :
    0x7F800000 ≤ rndRaw n d ↔ ((2 : ℚ) ^ 25 - 1) * 2 ^ 252 ≤ n / d := by
  have hmid : (magOf 0x7F7FFFFF : ℚ) + magOf 0x7F800000 = 2 * ((2 ^ 25 - 1) * 2 ^ 252) := by
    rw [← Nat.cast_add, magOf_overflow_mid]
    norm_num
  constructor
  · intro h
    obtain ⟨p, hp⟩ : ∃ p, rndRaw n d = p + 1 := ⟨rndRaw n d - 1, by omega⟩
    obtain ⟨hle, -⟩ := rndRaw_lower_rat hd hp
    have h1 := magOf_cast_mono (show 0x7F7FFFFF ≤ p by omega)
    have h2 := magOf_cast_mono (show 0x7F800000 ≤ p + 1 by omega)
    linarith
  · intro h
    by_contra hc
    obtain ⟨hle, heven⟩ := rndRaw_upper_rat (n := n) hd
    have h1 := magOf_cast_mono (show rndRaw n d ≤ 0x7F7FFFFF by omega)
    have h2 := magOf_cast_mono (show rndRaw n d + 1 ≤ 0x7F800000 by omega)
    have heq : magOf (rndRaw n d) = magOf 0x7F7FFFFF := by
      have : (magOf (rndRaw n d) : ℚ) = magOf 0x7F7FFFFF := by linarith
      exact_mod_cast this
    have hodd : rndRaw n d = 0x7F7FFFFF := magOf_strictMono.injective heq
    have := heven (by linarith)
    omega

end Sys2Proof.Machine
end

section
/-! `rnd32` is the rounding of R13, and the operations of R14 round their exact result once. -/

namespace Sys2Proof.Machine

theorem abs_signFactor (neg : Bool) : |signFactor neg| = 1 := by cases neg <;> simp [signFactor]

theorem signFactor_xor (a b : Bool) : signFactor (a ^^ b) = signFactor a * signFactor b := by
  cases a <;> cases b <;> simp [signFactor]

theorem signFactor_xor_eq_div (a b : Bool) : signFactor (a ^^ b) = signFactor a / signFactor b := by
  cases a <;> cases b <;> simp [signFactor]

/-- The distance of a finite value of the same sign, in units. -/
theorem abs_val_sub_same {u : Word} {neg : Bool} (h : u.msb = neg) (x : ℚ) :
    |val u - signFactor neg * x * (2 : ℚ) ^ (-149 : ℤ)| = |(magOf (body u) : ℚ) - x| * (2 : ℚ) ^ (-149 : ℤ) := by
  rw [val_eq_signFactor, h, ← sub_mul, ← mul_sub, abs_mul, abs_mul, abs_signFactor, one_mul, abs_of_pos unit_pos]

/-- The distance of a finite value of the opposite sign, in units. -/
theorem abs_val_sub_opposite {u : Word} {neg : Bool} (h : u.msb ≠ neg) {x : ℚ} (hx : 0 ≤ x) :
    |val u - signFactor neg * x * (2 : ℚ) ^ (-149 : ℤ)| = ((magOf (body u) : ℚ) + x) * (2 : ℚ) ^ (-149 : ℤ) := by
  have hs : signFactor u.msb = -signFactor neg := by
    cases hu : u.msb <;> cases neg <;> simp_all [signFactor]
  have e : val u - signFactor neg * x * (2 : ℚ) ^ (-149 : ℤ) =
      signFactor u.msb * ((magOf (body u) : ℚ) + x) * (2 : ℚ) ^ (-149 : ℤ) := by
    rw [val_eq_signFactor, ← neg_eq_iff_eq_neg.2 hs]
    ring
  rw [e, abs_mul, abs_mul, abs_signFactor, one_mul, abs_of_pos unit_pos, abs_of_nonneg (by positivity)]

theorem magOf_zero : magOf 0 = 0 := rfl

/-- Below the overflow `rnd32` is nearest among all finite values, those of the other sign included, ties to even (R13). -/
theorem rnd32_nearest (neg : Bool) {n d : Nat} (hd : 0 < d) (hfin : rndMag n d = rndRaw n d) (v : Word) :
    let r := signFactor neg * ((n : ℚ) / d) * (2 : ℚ) ^ (-149 : ℤ)
    |val (rnd32 neg n d) - r| ≤ |val v - r| ∧
      (val v ≠ val (rnd32 neg n d) → |val v - r| = |val (rnd32 neg n d) - r| → fracField (rnd32 neg n d) % 2 = 0) := by
  intro r
  have hx : (0 : ℚ) ≤ n / d := by positivity
  have heven : rndRaw n d % 2 = 0 → fracField (rnd32 neg n d) % 2 = 0 := by
    rw [fracField_eq, rnd32_body, hfin]
    omega
  have hu : |val (rnd32 neg n d) - r| = |(magOf (rndRaw n d) : ℚ) - n / d| * (2 : ℚ) ^ (-149 : ℤ) := by
    rw [abs_val_sub_same (rnd32_msb neg n d), rnd32_body, hfin]
  rw [hu]
  by_cases hs : v.msb = neg
  · obtain ⟨hle, htie⟩ := rndRaw_nearest (n := n) hd (body v)
    rw [abs_val_sub_same hs, mul_le_mul_iff_left₀ unit_pos, mul_left_inj' unit_pos.ne']
    refine ⟨hle, fun hne heq => heven (htie (fun hb => hne ?_) heq)⟩
    exact congrArg val (eq_of_body (hs.trans (rnd32_msb neg n d).symm) (by rw [hb, rnd32_body, hfin]))
  · obtain ⟨hle, htie⟩ := rndRaw_nearest (n := n) hd 0
    rw [magOf_zero, Nat.cast_zero, zero_sub, abs_neg, abs_of_nonneg hx] at hle htie
    have hv : (0 : ℚ) ≤ magOf (body v) := by positivity
    rw [abs_val_sub_opposite hs hx, mul_le_mul_iff_left₀ unit_pos, mul_left_inj' unit_pos.ne']
    refine ⟨by linarith, fun hne heq => heven (htie (fun h0 => hne ?_) (by linarith))⟩
    have hv0 : (magOf (body v) : ℚ) = 0 := by linarith
    rw [val_eq_signFactor, val_eq_signFactor, rnd32_body, hfin, ← h0, magOf_zero, hv0]
    simp

/-- From the overflow up `rnd32` is the infinity of the sign (R13). -/
theorem rnd32_infinity {neg : Bool} {n d : Nat} (h : rndMag n d = 0x7F800000) :
    rnd32 neg n d = if neg then 0xFF800000#32 else 0x7F800000#32 := by
  rw [rnd32, h]
  cases neg <;> decide

theorem signFactor_mul_neg_iff (neg : Bool) {x : ℚ} (hx : 0 < x) :
    signFactor neg * x * (2 : ℚ) ^ (-149 : ℤ) < 0 ↔ neg = true := by
  have : 0 < x * (2 : ℚ) ^ (-149 : ℤ) := mul_pos hx unit_pos
  cases neg <;> simp [signFactor] <;> linarith

/-- The overflow threshold of R13 in units. -/
theorem overflow_in_units (neg : Bool) {x : ℚ} (hx : 0 ≤ x) :
    (2 : ℚ) ^ 128 - 2 ^ 103 ≤ |signFactor neg * x * (2 : ℚ) ^ (-149 : ℤ)| ↔ ((2 : ℚ) ^ 25 - 1) * 2 ^ 252 ≤ x := by
  have e : (2 : ℚ) ^ 128 - 2 ^ 103 = ((2 ^ 25 - 1) * 2 ^ 252) * (2 : ℚ) ^ (-149 : ℤ) := by norm_num
  rw [abs_mul, abs_mul, abs_signFactor, one_mul, abs_of_nonneg hx, abs_of_pos unit_pos, e, mul_le_mul_iff_left₀ unit_pos]

/-- `rnd32` of a sign and a magnitude of n/d units is the rounding of that real (R13). -/
theorem rnd32_roundsTo (neg : Bool) (n : Nat) {d : Nat} (hd : 0 < d) :
    RoundsTo (signFactor neg * ((n : ℚ) / d) * (2 : ℚ) ^ (-149 : ℤ)) (rnd32 neg n d) := by
  have hx : (0 : ℚ) ≤ n / d := by positivity
  have hov := overflow_le_rndRaw_iff (n := n) hd
  have hmag := rndMag_eq n d
  unfold RoundsTo
  simp only [overflow_in_units neg hx, ← hov]
  split
  · rename_i h
    have hpos : (0 : ℚ) < n / d := lt_of_lt_of_le (by norm_num) (hov.1 h)
    rw [rnd32_infinity (by omega)]
    simp only [signFactor_mul_neg_iff neg hpos]
  · exact ⟨(isFinite_iff _).2 (by rw [rnd32_body]; omega), fun v _ => rnd32_nearest neg hd (by omega) v⟩

/-- Settles O27: the rounding's half-way points enclose the exact value, and the pattern's parity breaks ties. -/
theorem roundingIsNearestEven : Obligations.RoundingIsNearestEven := fun neg n _ hd => rnd32_roundsTo neg n hd

/-! ### Zeros -/

/-- The rounding of zero has the sign given to it (log 9). -/
theorem rnd32_zero (neg : Bool) {d : Nat} (hd : 0 < d) :
    rnd32 neg 0 d = if neg then 0x80000000#32 else 0x00000000#32 := by
  have h : rndMag 0 d = 0 := by simpa [magOf_zero] using rndMag_exact (p := 0) hd (by decide)
  rw [rnd32, h]
  cases neg <;> decide

/-- The zero of an exclusive-or of signs, as R14 writes it. -/
theorem rnd32_zero_xor (a b : Word) {d : Nat} (hd : 0 < d) :
    rnd32 (a.msb ^^ b.msb) 0 d = if a.msb = b.msb then 0x00000000#32 else 0x80000000#32 := by
  rw [rnd32_zero _ hd]
  cases a.msb <;> cases b.msb <;> rfl

/-! ### The sign bit inverted -/

theorem msb_invert (b : Word) : (b ^^^ 0x80000000#32).msb = !b.msb := by
  rw [BitVec.msb_xor, show (0x80000000#32).msb = true from rfl, Bool.xor_true]

theorem body_invert (b : Word) : body (b ^^^ 0x80000000#32) = body b := by
  have h : (0x80000000#32).toNat % 2 ^ 31 = 0 := by decide
  rw [body, BitVec.toNat_xor, Nat.xor_mod_two_pow, h, Nat.xor_zero, body]

theorem val_invert (b : Word) : val (b ^^^ 0x80000000#32) = -val b := by
  rw [val_eq_signFactor, val_eq_signFactor, msb_invert, body_invert]
  cases b.msb <;> simp [signFactor]

theorem invert_eq_negZero_iff (b : Word) : b ^^^ 0x80000000#32 = 0x80000000#32 ↔ b = 0x00000000#32 := by
  rw [← BitVec.xor_left_inj 0x80000000#32, BitVec.xor_assoc]
  simp

/-! ### Sums, products, quotients (R14) -/

theorem val_add_eq_units (a b : Word) : val a + val b = ((units a + units b : ℤ) : ℚ) * (2 : ℚ) ^ (-149 : ℤ) := by
  rw [val_eq_units, val_eq_units, Int.cast_add, add_mul]

theorem val_add_eq_zero_iff (a b : Word) : val a + val b = 0 ↔ units a + units b = 0 := by
  rw [val_add_eq_units, mul_eq_zero, or_iff_left unit_pos.ne', Int.cast_eq_zero]

/-- The zero of an exact sum (R14). -/
theorem fadd_of_sum_zero {a b : Word} (h : val a + val b = 0) :
    fadd a b = if a = 0x80000000#32 ∧ b = 0x80000000#32 then 0x80000000#32 else 0x00000000#32 := by
  rw [fadd, if_pos ((val_add_eq_zero_iff a b).1 h)]

theorem signFactor_mul_natAbs (x : ℤ) : signFactor (decide (x < 0)) * (x.natAbs : ℚ) = x := by
  rw [Nat.cast_natAbs]
  by_cases h : x < 0
  · simp [signFactor, h, abs_of_neg h]
  · simp [signFactor, h, abs_of_nonneg (not_lt.1 h)]

theorem fadd_roundsTo (a b : Word) : RoundsTo (val a + val b) (fadd a b) := by
  by_cases h : units a + units b = 0
  · have hz : ∀ neg, RoundsTo 0 (rnd32 neg 0 1) := fun neg => by simpa using rnd32_roundsTo neg 0 Nat.one_pos
    have h0 := (val_add_eq_zero_iff a b).2 h
    rw [h0, fadd_of_sum_zero h0]
    split
    · simpa [rnd32_zero] using hz true
    · simpa [rnd32_zero] using hz false
  · have hr := rnd32_roundsTo (decide (units a + units b < 0)) (units a + units b).natAbs Nat.one_pos
    rw [Nat.cast_one, div_one, signFactor_mul_natAbs, ← val_add_eq_units] at hr
    rwa [fadd, if_neg h]

/-- Settles O28: a difference is a sum with the second sign inverted, and inverting the sign bit negates the value. -/
theorem sumsRoundOnce : Obligations.SumsRoundOnce := by
  intro a b _ _
  have hsub : val a - val b = val a + val (b ^^^ 0x80000000#32) := by rw [val_invert, sub_eq_add_neg]
  refine ⟨fadd_roundsTo a b, ?_, fadd_of_sum_zero, rfl, fun h => ?_⟩
  · rw [hsub]
    exact fadd_roundsTo _ _
  · rw [hsub] at h
    rw [fsub, fadd_of_sum_zero h]
    simp only [invert_eq_negZero_iff]

theorem fmul_roundsTo (a b : Word) : RoundsTo (val a * val b) (fmul a b) := by
  have hr := rnd32_roundsTo (a.msb ^^ b.msb) (mag a * mag b) (show 0 < 2 ^ 149 by positivity)
  have e : val a * val b =
      signFactor (a.msb ^^ b.msb) * (((mag a * mag b : ℕ) : ℚ) / ((2 ^ 149 : ℕ) : ℚ)) * (2 : ℚ) ^ (-149 : ℤ) := by
    rw [val_eq_signFactor, val_eq_signFactor, signFactor_xor, mag_eq, mag_eq, zpow_neg]
    push_cast
    ring
  rw [e]
  exact hr

/-- Settles O29: a product is zero exactly when a magnitude is. -/
theorem productsRoundOnce : Obligations.ProductsRoundOnce := by
  intro a b _ _
  refine ⟨fmul_roundsTo a b, fun h => ?_⟩
  have hm : mag a * mag b = 0 := by
    rw [mul_eq_zero, val_eq_zero_iff, val_eq_zero_iff] at h
    exact mul_eq_zero.2 h
  rw [fmul, hm, rnd32_zero_xor a b (by positivity)]

theorem fdiv_roundsTo (a : Word) {b : Word} (hb : val b ≠ 0) : RoundsTo (val a / val b) (fdiv a b) := by
  have hmb : 0 < mag b := Nat.pos_of_ne_zero (mt (val_eq_zero_iff b).2 hb)
  have hr := rnd32_roundsTo (a.msb ^^ b.msb) (mag a * 2 ^ 149) hmb
  have e : val a / val b =
      signFactor (a.msb ^^ b.msb) * (((mag a * 2 ^ 149 : ℕ) : ℚ) / (mag b : ℚ)) * (2 : ℚ) ^ (-149 : ℤ) := by
    have hunit : ((2 ^ 149 : ℕ) : ℚ) * (2 : ℚ) ^ (-149 : ℤ) = 1 := by norm_num
    rw [val_eq_signFactor, val_eq_signFactor, signFactor_xor_eq_div, mag_eq, mag_eq, mul_div_mul_right _ _ unit_pos.ne',
      Nat.cast_mul]
    linear_combination -(signFactor a.msb / signFactor b.msb * (magOf (body a) / magOf (body b))) * hunit
  rw [e]
  exact hr

/-- Settles O30: the quotient of two values is the quotient of their units. -/
theorem quotientsRoundOnce : Obligations.QuotientsRoundOnce := by
  intro a b _ _ hb
  refine ⟨fdiv_roundsTo a hb, fun h => ?_⟩
  rw [fdiv, (val_eq_zero_iff a).1 h, Nat.zero_mul,
    rnd32_zero_xor a b (Nat.pos_of_ne_zero (mt (val_eq_zero_iff b).2 hb))]

end Sys2Proof.Machine
end

section
/-! A step runs the decoded command (R18, R56), and a run of the signal level is a step of the command level (R18, R95, R96). -/

namespace Sys2Proof.Machine

/-! ### The step -/

theorem runWord_ok {word : CmdWord} {i : Instr} (h : decode word = .ok i) (s : State) : runWord word s = exec i s := by
  rw [runWord, h]

theorem runWord_error {word : CmdWord} {e : DecodeError} (h : decode word = .error e) (s : State) :
    runWord word s = .next (refuse codeILLEGAL s) := by
  rw [runWord, h]

theorem step_command_idle {s : State} {word : CmdWord} {pins : Pins} {rest : List Input}
    (hi : s.inputs = .command word pins :: rest) (hs : s.seq = .idle) :
    step s = settleResult (runWord word (accept word pins { s with inputs := rest })) := by
  simp only [step, commandStep, hi, hs]

theorem step_command_busy {s : State} {word : CmdWord} {pins : Pins} {rest : List Input}
    (hi : s.inputs = .command word pins :: rest) (hs : s.seq ≠ .idle) : step s = .next s := by
  rw [step, commandStep, hi]
  cases hq : s.seq with
  | idle => exact absurd hq hs
  | exec => simp only
  | resp => simp only

/-- Settles O5: an idle block accepts the command and runs what its word decodes to; a busy one answers its own state. -/
theorem stepRunsDecodedCommand : Obligations.StepRunsDecodedCommand := by
  intro s word pins rest hi
  refine ⟨fun i hs hd => ?_, step_command_busy hi⟩
  rw [step_command_idle hi hs, runWord_ok hd]
  rfl

/-! ### Commands of one cycle -/

/-- What a `PROD` answers (R93). -/
theorem exec_prod (s : State) :
    exec .prod s = .next (respond codeOK 0#32 { s with
      phase := (synth Config.N s.phase s.astep).2
      fb := s.fb.writeRun 0 (pairBytes (synth Config.N s.phase s.astep).1)
      fv := true }) := rfl

/-- What an `EMIT` that starts its burst answers (R94). -/
theorem exec_emit_burst {s : State} {ws : List Sample} (hf : s.fv = true) (hd : s.pins.devReady = true)
    (hw : s.fb.frame = some ws) : exec .emit s = .next (burstOutcome ws s.pins.draw s) := by
  simp only [exec, execEmit, hf, hd, hw, Bool.true_eq_false, if_false]

/-- The state of a command that is answered in its own cycle: the response is ready and no abort is raised. -/
def Answered (s u : State) : Prop := u.seq = .resp ∧ u.snkAbort = s.snkAbort

theorem respond_answered (st : BitVec 4) (d : Word) {s t : State} (h : t.snkAbort = s.snkAbort) :
    Answered s (respond st d t) := ⟨rfl, h⟩

/-- A command other than `EMIT` answers; an `EMIT` answers where it is refused (R121). -/
theorem exec_answered {i : Instr} {s u : State} (h : exec i s = .next u)
    (he : i = .emit → (s.fv && s.pins.devReady) = false) : Answered s u := by
  cases i with
  | nop => cases h; exact respond_answered _ _ rfl
  | setp freq amp => rcases execSetp_next h with ⟨st, -, rfl⟩ | ⟨-, rfl⟩ <;> exact respond_answered _ _ rfl
  | step => cases h; exact respond_answered _ _ rfl
  | prod =>
    rw [exec_prod, Host.Outcome.next.injEq] at h
    subst h
    exact respond_answered _ _ rfl
  | emit =>
    rcases execEmit_next h with ⟨-, rfl⟩ | ⟨-, -, rfl⟩ | ⟨ws, hf, hd, -, -⟩
    · exact respond_answered _ _ rfl
    · exact respond_answered _ _ rfl
    · simp [hf, hd] at he
  | rdsr idx => rcases execRdsr_next h with ⟨v, -, rfl⟩ | ⟨-, rfl⟩ <;> exact respond_answered _ _ rfl
  | rdfb idx =>
    rcases execRdfb_next h with ⟨-, rfl⟩ | ⟨_, -, -, rfl⟩ | ⟨_, v, -, -, -, rfl⟩ <;> exact respond_answered _ _ rfl
  | clrf mask => cases h; exact respond_answered _ _ rfl

theorem runWord_answered {word : CmdWord} {s u : State} (h : runWord word s = .next u)
    (he : decode word = .ok .emit → (s.fv && s.pins.devReady) = false) : Answered s u := by
  rcases runWord_next h with ⟨i, hd, hx⟩ | ⟨e, -, rfl⟩
  · exact exec_answered hx (fun hi => he (hi ▸ hd))
  · exact respond_answered _ _ rfl

/-! ### The signal level refines the command level -/

/-- A command of one cycle, run to its response, leaves what its word runs to. -/
theorem run_short_refines {cs : List CycleIn} {b t : State} (hb : b.burst = false) (hp : b.rsp = none) (hs : b.seq = .exec)
    (ha : b.snkAbort = false) (hd : decode b.cmd ≠ .ok .prod)
    (he : decode b.cmd = .ok .emit → (b.fv && b.pins.devReady) = false)
    (hc : ∀ x ∈ cs, x.rst = false) (h : runToResponse cs b = .next t) (hr : t.seq = .resp) :
    ∃ u, runWord b.cmd b = .next u ∧ { t with pins := u.pins, snkAbort := false } = u := by
  obtain ⟨cs', u, hc', hu, hru⟩ := run_short hb hp hs hd hc h hr
  rw [← ha] at hu
  obtain ⟨hseq, habort⟩ := runWord_answered hu he
  rw [runToResponse_resp hseq] at hru
  cases hru
  exact ⟨t, hu, by rw [← ha, ← habort]⟩

/-- A `PROD`, run to its response from sample 0, leaves what the command level gives (R93). -/
theorem run_prod_refines {cs : List CycleIn} {b t : State} (hb : b.burst = false) (hp : b.rsp = none) (hs : b.seq = .exec)
    (ha : b.snkAbort = false) (hk : b.k = 0) (hd : decode b.cmd = .ok .prod)
    (hc : ∀ x ∈ cs, x.rst = false) (h : runToResponse cs b = .next t) (hr : t.seq = .resp) :
    ∃ u, runWord b.cmd b = .next u ∧ { t with pins := u.pins, snkAbort := false } = u := by
  obtain ⟨r, hsyn, ht⟩ := run_prod hb hp hs hd hc h hr
  have hk0 : b.k.val = 0 := congrArg Fin.val hk
  have hpins : t.pins = b.pins := by simpa using congrArg State.pins ht
  rw [hk0, Nat.mul_zero] at ht
  rw [hk0, Nat.sub_zero] at hsyn
  refine ⟨_, (runWord_ok hd b).trans (exec_prod b), ?_⟩
  rw [← hsyn, respond_pins, ← hpins, ht]
  simp only [respond, ha, hk, hpins]

/-- The pins are no input of a burst with a given outcome. -/
theorem burstOutcome_pins (ws : List Sample) (draw : BurstDraw) (s : State) (pins : Pins) :
    burstOutcome ws draw { s with pins := pins } = { burstOutcome ws draw s with pins := pins } := by
  cases draw <;> rfl

/-- A burst, run to its response from its start, leaves what the command level gives for one of the outcomes of R95. -/
theorem run_burst_refines {cs : List CycleIn} {b t : State} {v : Bool} (hb : b.burst = false)
    (hs : b.seq = .exec) (ha : b.snkAbort = false) (hidle : b.w = 0 ∧ b.tmr = 0#13 ∧ b.snkValid = false)
    (hd : decode b.cmd = .ok .emit) (hf : b.fv = true) (hdev : b.pins.devReady = true)
    (hw : b.fb.wf) (hframe : completeFrame b.fb) (hc : ∀ x ∈ cs, x.rst = false)
    (h : runToResponse cs { b with burst := true, tmr := 0#13, w := 0, snkValid := v } = .next t) (hr : t.seq = .resp) :
    ∃ draw u, runWord b.cmd { b with pins := { b.pins with draw := draw } } = .next u ∧
      { t with pins := u.pins, snkAbort := false } = u := by
  obtain ⟨ws, hws, hlen, hread⟩ := frame_of_complete hw hframe
  have hin : InBurst b ws { b with burst := true, tmr := 0#13, w := 0, snkValid := v } :=
    ⟨0, 0#13, v, b.snkAbort, by simp [burstWords]⟩
  obtain ⟨draw, ht⟩ := run_burst hs ⟨hb, hidle⟩ hlen hread hin hc h hr
  refine ⟨draw, _, (runWord_ok hd _).trans (exec_emit_burst hf hdev hws), ?_⟩
  rw [burstOutcome_pins]
  have := congrArg (fun x : State => { x with pins := { b.pins with draw := draw } }) ht
  obtain ⟨-, -, -, -, -, -, habort, -⟩ := burstOutcome_frame ws draw b
  rw [ha] at habort
  simp only [habort]
  exact this

/-- The cycle that accepts an `EMIT` and starts its burst (R96). -/
theorem acceptCycle_burst {c : CycleIn} {s : State} (hd : decode c.word = .ok .emit) (hs : (s.fv && c.devReady) = true) :
    acceptCycle c s = { accept c.word { s.pins with devReady := c.devReady } s with
      burst := true, tmr := 0#13, w := 0, snkValid := c.go } := by
  simp only [acceptCycle, hd, accept_fv, hs, if_true]

/-- The cycle that accepts a command and starts no burst (R56). -/
theorem acceptCycle_quiet {c : CycleIn} {s : State} (hk : s.k = 0)
    (he : decode c.word = .ok .emit → (s.fv && c.devReady) = false) :
    acceptCycle c s = accept c.word { s.pins with devReady := c.devReady } s := by
  unfold acceptCycle
  split
  · rename_i hd
    simp only [accept_fv, he hd, Bool.false_eq_true, if_false]
  · simp only [accept, hk]
  · rfl

/-- Settles O52: the accepting cycle leaves what `accept` gives, or starts the burst; then the run of a burst, of a `PROD` or of a
command of one cycle ends as its meaning says. -/
theorem signalRunRefinesCommand : Obligations.SignalRunRefinesCommand := by
  intro s t c cs hinv hidle hrst hval hcs h hr
  have hburst : s.burst = false := by
    rw [← Bool.not_eq_true, ← hinv.seqExec, hidle]
    exact Seq.noConfusion
  obtain ⟨b, hb, hrun⟩ := runToResponse_next (by simp [hidle]) h
  have hquiet : { s with snkAbort := false } = s := by rw [← hinv.abortIdle]
  rw [cycle_idle hrst hidle, hval, if_pos rfl, hquiet, Host.Outcome.next.injEq] at hb
  subst hb
  by_cases he : decode c.word = .ok .emit ∧ (s.fv && c.devReady) = true
  · obtain ⟨hd, hstart⟩ := he
    obtain ⟨hf, hdev⟩ := Bool.and_eq_true_iff.1 hstart
    rw [acceptCycle_burst hd hstart] at hrun
    exact run_burst_refines (b := accept c.word { s.pins with devReady := c.devReady } s) hburst rfl rfl
      (hinv.burstIdle hburst) hd hf hdev hinv.wf (hinv.frame hf) hcs hrun hr
  · have he : decode c.word = .ok .emit → (s.fv && c.devReady) = false := fun hd => by simpa [hd] using he
    rw [acceptCycle_quiet hinv.sampleIdle he] at hrun
    refine ⟨s.pins.draw, ?_⟩
    by_cases hp : decode c.word = .ok .prod
    · exact run_prod_refines (b := accept c.word { s.pins with devReady := c.devReady } s) hburst rfl rfl rfl
        hinv.sampleIdle hp hcs hrun hr
    · exact run_short_refines (b := accept c.word { s.pins with devReady := c.devReady } s) hburst rfl rfl rfl hp he
        hcs hrun hr

end Sys2Proof.Machine
end

section
/-! What a command can answer, and the invariant between commands (R21, R22, R27, R83). -/

namespace Sys2Proof.Machine

/-! ### Everything a command can answer -/

/-- The answers of each command, with what decides between them (R57). -/
inductive Answer (s : State) : Instr → State → Prop where
  | nop : Answer s .nop (respond codeOK 0#32 s)
  | setp {freq amp st : Word} (h : stepOf freq = some st) :
    Answer s (.setp freq amp) (respond codeOK st { s with amp := amp, astep := st })
  | setpPartial {freq amp : Word} (h : stepOf freq = none) : Answer s (.setp freq amp) (partialEnd { s with amp := amp })
  | step : Answer s .step (respond codeOK (sin7 (advance s.phase s.astep)) { s with phase := advance s.phase s.astep })
  | prod :
    Answer s .prod (respond codeOK 0#32 { s with
      phase := (synth Config.N s.phase s.astep).2
      fb := s.fb.writeRun 0 (pairBytes (synth Config.N s.phase s.astep).1)
      fv := true })
  | emitRefused {code : BitVec 4} (h : ¬(s.fv = true ∧ s.pins.devReady = true)) : Answer s .emit (refuse code s)
  | burst {ws : List Sample} (hf : s.fv = true) (hd : s.pins.devReady = true) (hw : s.fb.frame = some ws) :
    Answer s .emit (burstOutcome ws s.pins.draw s)
  | rdsr {idx : Word} (code : BitVec 4) (data : Word) : Answer s (.rdsr idx) (respond code data s)
  | rdfb {idx : Word} (code : BitVec 4) (data : Word) : Answer s (.rdfb idx) (respond code data s)
  | clrf {mask : Word} : Answer s (.clrf mask) (respond codeOK (statusWord (clearFlags mask s)) (clearFlags mask s))

theorem exec_answer {i : Instr} {s t : State} (h : exec i s = .next t) : Answer s i t := by
  cases i with
  | nop => cases h; exact .nop
  | setp freq amp =>
    rcases execSetp_next h with ⟨st, hst, rfl⟩ | ⟨hst, rfl⟩
    · exact .setp hst
    · exact .setpPartial hst
  | step => cases h; exact .step
  | prod =>
    rw [exec_prod, Host.Outcome.next.injEq] at h
    subst h
    exact .prod
  | emit =>
    rcases execEmit_next h with ⟨hf, rfl⟩ | ⟨-, hd, rfl⟩ | ⟨ws, hf, hd, hw, rfl⟩
    · exact .emitRefused (by simp [hf])
    · exact .emitRefused (by simp [hd])
    · exact .burst hf hd hw
  | rdsr idx => rcases execRdsr_next h with ⟨v, -, rfl⟩ | ⟨-, rfl⟩ <;> exact .rdsr _ _
  | rdfb idx => rcases execRdfb_next h with ⟨-, rfl⟩ | ⟨_, -, -, rfl⟩ | ⟨_, v, -, -, -, rfl⟩ <;> exact .rdfb _ _
  | clrf mask => cases h; exact .clrf

/-! ### The invariant between commands -/

/-- Settles O45: the values of R36 meet each clause. -/
theorem resetMeetsInvariant : Obligations.ResetMeetsInvariant where
  phase := by decide
  astep := by decide
  wf := Memory.wf_nil
  noFrame := fun _ => rfl
  frame := nofun
  seqExec := by decide
  burstFrame := by decide
  burstIdle := by decide
  sampleIdle := rfl
  tmrBound := by decide
  abortIdle := rfl

theorem applyReset_inv (s : State) : Inv (applyReset s) := { resetMeetsInvariant with }

/-- The invariant of a command in execution: its response, given now, would leave a state of the invariant. -/
structure InvExec (s : State) : Prop where
  seq : s.seq = .exec
  inv : Inv { s with seq := .resp }

theorem inv_burst_false {s : State} (h : Inv s) (hs : s.seq ≠ .exec) : s.burst = false :=
  Bool.not_eq_true _ ▸ mt h.seqExec.2 hs

theorem accept_invExec {s : State} (h : Inv s) (hs : s.seq = .idle) (word : CmdWord) (pins : Pins) :
    InvExec (accept word pins s) := by
  have hb := inv_burst_false h (by simp [hs])
  exact ⟨rfl, { h with seqExec := by simp [hb], abortIdle := rfl }⟩

theorem InvExec.burst_false {s : State} (h : InvExec s) : s.burst = false := by
  have hb := inv_burst_false h.inv
  exact hb nofun

theorem InvExec.respond {s : State} (h : InvExec s) (code : BitVec 4) (data : Word) : Inv (respond code data s) :=
  { h.inv with }

/-- A command that ends its burst leaves no frame (R27). -/
theorem InvExec.dropFrame {s : State} (h : InvExec s) (es : List SinkEvent) : InvExec (dropFrame (sinkPut es s)) := by
  have hb := h.burst_false
  exact ⟨h.seq, { h.inv with
    wf := Memory.wf_nil, noFrame := fun _ => rfl, frame := by simp, burstFrame := by simp [hb] }⟩

/-- A burst ends with the frame dropped, or goes on with the frame in FB (R27, R94, R148). -/
theorem InvExec.burstOutcome {s : State} (h : InvExec s) (hf : s.fv = true) (ws : List Sample) (draw : BurstDraw) :
    Inv (burstOutcome ws draw s) := by
  cases draw with
  | complete => exact (h.dropFrame _).respond _ _
  | timeout k => exact { (h.dropFrame (burstWords 0 (ws.take k.val))).inv with }
  | sinkErr k => exact { (h.dropFrame (burstWords 0 (ws.take k.val))).inv with }
  | unfinished k ticks offering =>
    obtain ⟨hs, h⟩ := h
    have htmr : (BitVec.ofNat 13 ticks.val).toNat < 4410 := (Nat.mod_le _ _).trans_lt ticks.isLt
    exact { h with
      seqExec := by simp [Machine.burstOutcome, hs]
      burstFrame := fun _ => hf
      burstIdle := by simp [Machine.burstOutcome]
      tmrBound := htmr }

/-- A completed `PROD` leaves a complete frame and a legal phase (R27, R93). -/
theorem InvExec.produced {s : State} (h : InvExec s) (n : Nat) {vs : List Sample} (hv : vs.length = Config.N) :
    Inv (Machine.respond codeOK 0#32 { s with
      phase := (synth n s.phase s.astep).2, fb := s.fb.writeRun 0 (pairBytes vs), fv := true }) := by
  obtain ⟨-, h⟩ := h
  exact { h with
    phase := synth_legal h.astep n h.phase
    wf := Memory.writeRun_wf h.wf (by rw [pairBytes_length, hv]; decide)
    noFrame := nofun
    frame := fun _ => completeFrame_pairs _ hv
    burstFrame := fun _ => rfl }

theorem exec_inv {i : Instr} {s t : State} (h : InvExec s) (hx : exec i s = .next t) : Inv t := by
  have hinv := h.inv
  cases exec_answer hx with
  | nop | emitRefused | rdsr | rdfb => exact h.respond _ _
  | setp hst => exact { hinv with astep := stepOf_finite hst }
  | setpPartial => exact { hinv with }
  | step => exact { hinv with phase := advance_legal hinv.phase hinv.astep }
  | prod => exact h.produced _ (synth_length _ _ _)
  | burst hf => exact h.burstOutcome hf _ _
  | clrf => exact { hinv with }

theorem runWord_inv {word : CmdWord} {s t : State} (h : InvExec s) (hx : runWord word s = .next t) : Inv t := by
  rcases runWord_next hx with ⟨i, -, hx⟩ | ⟨e, -, rfl⟩
  · exact exec_inv h hx
  · exact h.respond _ _

/-- A command's end leaves the state, or takes the response of a block in RESP (R63, R149). -/
theorem settle_cases (s : State) : settle s = s ∨ (s.seq = .resp ∧ settle s = { s with seq := .idle }) := by
  unfold settle
  split
  · split
    · exact .inr ⟨‹_›, rfl⟩
    · exact .inl rfl
  · exact .inl rfl

theorem settle_inv {s : State} (h : Inv s) : Inv (settle s) := by
  rcases settle_cases s with e | ⟨hs, e⟩
  · rwa [e]
  · have hb := inv_burst_false h (by simp [hs])
    rw [e]
    exact { h with seqExec := by simp [hb] }

/-- Settles O46: a step answers the same state, a reset, or the settled answer of a command that an idle block accepted. -/
theorem stepKeepsInvariant : Obligations.StepKeepsInvariant := by
  intro s t h hstep
  rcases step_next hstep with ⟨-, rfl⟩ | ⟨rest, -, rfl⟩ | ⟨_, _, _, -, -, rfl⟩ | ⟨word, pins, rest, u, -, hs, hu, rfl⟩
  · exact h
  · exact applyReset_inv _
  · exact h
  · have hrest : Inv { s with inputs := rest } := { h with }
    exact settle_inv (runWord_inv (accept_invExec hrest hs word pins) hu)

end Sys2Proof.Machine
end

section
/-! The access matrix (R38), the status register and its sticky flags (R28, R29), and the amplitude, which nothing reads but `RDSR`
(R23, R99). -/

namespace Sys2Proof.Machine

/-! ### The access matrix -/

/-- Settles O49: each answer writes the registers of its own command only. -/
theorem accessMatrix : Obligations.AccessMatrix := by
  intro i s t h
  cases exec_answer h with
  | nop | setp | setpPartial | step | prod | emitRefused | rdsr | rdfb | clrf => simp
  | burst => simp [burstOutcome_frame]

/-! ### The status register -/

theorem flagBit_getLsbD {pos : Nat} (hp : pos < 32) (f : Bool) (n : Nat) :
    (flagBit pos f).getLsbD n = (f && decide (n = pos)) := by
  cases f with
  | false => simp [flagBit]
  | true =>
    have h : (BitVec.twoPow 32 pos).getLsbD n = (decide (pos < 32) && decide (pos = n)) := BitVec.getLsbD_twoPow pos n
    simpa [flagBit, BitVec.twoPow, hp, eq_comm] using h

/-- Settles O11: bit n of STATUS is the one flag of position n. -/
theorem statusLayout : Obligations.StatusLayout := by
  intro s
  have hbit (n : Nat) : (statusWord s).getLsbD n =
      (s.pins.devReady && decide (n = 0) || s.fv && decide (n = 1) || s.tout && decide (n = 2) ||
        s.snke && decide (n = 3) || s.perr && decide (n = 4)) := by
    simp only [statusWord, BitVec.getLsbD_or, flagBit_getLsbD, Nat.reduceLT]
  simp only [hbit]
  refine ⟨by simp, by simp, by simp, by simp, by simp, fun n hn => ?_⟩
  have h0 : n ≠ 0 ∧ n ≠ 1 ∧ n ≠ 2 ∧ n ≠ 3 ∧ n ≠ 4 := by omega
  simp [h0]

/-- The sticky flags of a failed burst: the draw alone decides (R130). -/
theorem burstOutcome_flags (ws : List Sample) (draw : BurstDraw) (s : State) :
    ((burstOutcome ws draw s).tout = true ↔ (∃ k, draw = .timeout k) ∨ s.tout = true) ∧
      ((burstOutcome ws draw s).snke = true ↔ (∃ k, draw = .sinkErr k) ∨ s.snke = true) := by
  cases draw <;> simp [burstOutcome]

/-- Settles O50: only a timeout, a sink error and a refused step set a flag, and only `CLRF` clears one. -/
theorem stickyFlags : Obligations.StickyFlags := by
  intro i s t h
  cases exec_answer h with
  | nop | step | prod | rdsr | rdfb => simp
  | setp hst => simp [hst]
  | setpPartial hst => simp [hst]
  | emitRefused hr =>
    have hno (p : Prop) : ¬(s.fv = true ∧ s.pins.devReady = true ∧ p) := fun ⟨hf, hd, _⟩ => hr ⟨hf, hd⟩
    simp [hno]
  | burst hf hd => simp [burstOutcome_flags, burstOutcome_frame, hf, hd]
  | clrf => simp

/-! ### RDSR -/

/-- Settles O10: an index below 4 selects its register. -/
theorem rdsrAnswersRegister : Obligations.RdsrAnswersRegister := by
  refine ⟨fun a b => ?_, fun s => ⟨rfl, rfl, rfl, rfl⟩⟩
  simp only [decode, Laws.op_mk, Laws.a_mk]
  rfl

/-! ### The amplitude -/

theorem burstOutcome_amp (ws : List Sample) (draw : BurstDraw) (s : State) (a : Word) :
    burstOutcome ws draw { s with amp := a } = { burstOutcome ws draw s with amp := a } := by
  cases draw <;> rfl

theorem exec_emit_noFrame {s : State} (hf : s.fv = false) : exec .emit s = .next (refuse codeNOFRAME s) := by
  simp only [exec, execEmit, hf, if_true]

theorem exec_emit_notReady {s : State} (hf : s.fv = true) (hd : s.pins.devReady = false) :
    exec .emit s = .next (refuse codeNOTREADY s) := by
  simp only [exec, execEmit, hf, hd, Bool.true_eq_false, if_true, if_false]

theorem exec_emit_amp {s t : State} (h : exec .emit s = .next t) (a : Word) :
    exec .emit { s with amp := a } = .next { t with amp := a } := by
  rcases execEmit_next h with ⟨hf, rfl⟩ | ⟨hf, hd, rfl⟩ | ⟨ws, hf, hd, hw, rfl⟩
  · exact exec_emit_noFrame (s := { s with amp := a }) hf
  · exact exec_emit_notReady (s := { s with amp := a }) hf hd
  · rw [← burstOutcome_amp]
    exact exec_emit_burst (s := { s with amp := a }) hf hd hw

theorem exec_rdfb_illegal {idx : Word} (hi : frameIndex idx = none) (s : State) :
    exec (.rdfb idx) s = .next (refuse codeILLEGAL s) := by
  simp only [exec, execRdfb, hi]

theorem exec_rdfb_noFrame {idx : Word} {i : Fin Config.FRAME_WORDS} {s : State} (hi : frameIndex idx = some i)
    (hf : s.fv = false) : exec (.rdfb idx) s = .next (refuse codeNOFRAME s) := by
  simp only [exec, execRdfb, hi, hf, if_true]

theorem exec_rdfb_word {idx : Word} {i : Fin Config.FRAME_WORDS} {s : State} {v : Sample} (hi : frameIndex idx = some i)
    (hf : s.fv = true) (hv : s.fb.readWord i.val = some v) :
    exec (.rdfb idx) s = .next (respond codeOK (v.setWidth 32) s) := by
  simp only [exec, execRdfb, hi, hf, hv, Bool.true_eq_false, if_false]

theorem exec_rdfb_amp {idx : Word} {s t : State} (h : exec (.rdfb idx) s = .next t) (a : Word) :
    exec (.rdfb idx) { s with amp := a } = .next { t with amp := a } := by
  rcases execRdfb_next h with ⟨hi, rfl⟩ | ⟨i, hi, hf, rfl⟩ | ⟨i, v, hi, hf, hv, rfl⟩
  · exact exec_rdfb_illegal hi _
  · exact exec_rdfb_noFrame (s := { s with amp := a }) hi hf
  · exact exec_rdfb_word (s := { s with amp := a }) hi hf hv

/-- `hwrite` speaks of any phase and buffer: to compare the synthesised ones the kernel would run the synthesis. -/
theorem exec_prod_amp {s t : State} (h : exec .prod s = .next t) (a : Word) :
    exec .prod { s with amp := a } = .next { t with amp := a } := by
  have hwrite (p : Word) (m : Memory) : respond codeOK 0#32 { s with amp := a, phase := p, fb := m, fv := true } =
      { respond codeOK 0#32 { s with phase := p, fb := m, fv := true } with amp := a } := rfl
  rw [exec_prod, Host.Outcome.next.injEq] at h
  subst h
  exact (exec_prod { s with amp := a }).trans (congrArg _ (hwrite _ _))

/-- Settles O25: `SETP` overwrites the amplitude, and no other meaning but that of `RDSR` reads it. -/
theorem amplitudeNotApplied : Obligations.AmplitudeNotApplied := by
  intro i s t a h hr
  cases i with
  | rdsr idx => exact absurd rfl (hr idx)
  | setp f b => exact ⟨fun hs => absurd rfl (hs f b), fun _ => h⟩
  | nop | step | clrf => cases h; exact ⟨fun _ => rfl, by simp⟩
  | prod => exact ⟨fun _ => exec_prod_amp h a, by simp⟩
  | emit => exact ⟨fun _ => exec_emit_amp h a, by simp⟩
  | rdfb idx => exact ⟨fun _ => exec_rdfb_amp h a, by simp⟩

end Sys2Proof.Machine
end

section
/-! The burst of a complete frame (R94, R95, R97), the legal phases (R21) and the reset step (R36). -/

namespace Sys2Proof.Machine

/-! ### EMIT -/

theorem burstWords_eq_mapIdx (ws : List Sample) (i : Nat) :
    burstWords i ws = ws.mapIdx (fun j v => burstWord (i + j) v) := by
  induction ws generalizing i with
  | nil => rfl
  | cons v vs ih => simp [burstWords, ih, Nat.add_assoc, Nat.add_comm 1]

/-- The words of a burst from word 0 on carry the tags of R45. -/
theorem burstWords_zero (ws : List Sample) : burstWords 0 ws = taggedWords ws := by
  simp [burstWords_eq_mapIdx, taggedWords, burstWord, beq_eq_decide]

/-- Settles O21: FB read in order is the frame that the burst sends. -/
theorem emitCompleteSendsFrame : Obligations.EmitCompleteSendsFrame := by
  refine ⟨fun a b => ?_, fun s hf hw hc hd hdraw => ?_⟩
  · simp only [decode, Laws.op_mk]
    rfl
  · obtain ⟨ws, hws, hlen, hread⟩ := frame_of_complete hw hc
    refine ⟨ws, hlen, hread, ?_⟩
    rw [exec_emit_burst hf hd hws, hdraw, ← burstWords_zero]
    rfl

/-- Settles O22: a burst that fails after k words has sent the first k of the frame. -/
theorem emitFailureDropsFrame : Obligations.EmitFailureDropsFrame := by
  intro s k hf hw hc hd
  obtain ⟨ws, hws, hlen, hread⟩ := frame_of_complete hw hc
  have hk : k.val < 882 := k.isLt
  refine ⟨ws.take k.val, by rw [List.length_take]; omega, fun i hi => ?_, fun hdraw => ?_, fun hdraw => ?_⟩
  · rw [List.getElem?_take_of_lt hi, hread i (by omega)]
  all_goals
    rw [exec_emit_burst hf hd hws, hdraw, ← burstWords_zero]
    rfl

/-! ### The legal phases -/

theorem legalPhase_iff (p : Word) : legalPhase p = true ↔ p.toNat < Config.TWO_PI_F.toNat := decide_eq_true_iff

/-- Finite patterns of sign 0 are ordered as their values are (R12). -/
theorem val_lt_iff_toNat_lt {p q : Word} (hp : p.msb = false) (hq : q.msb = false) : val p < val q ↔ p.toNat < q.toNat := by
  rw [val_lt_iff, units, units, hp, hq, mag_eq, mag_eq, toNat_of_msb hp, toNat_of_msb hq, ← magOf_strictMono.lt_iff_lt]
  simp

theorem val_nonneg {p : Word} (hp : p.msb = false) : 0 ≤ val p := by
  have hsign : signFactor false = 1 := rfl
  rw [val_eq_signFactor, hp, hsign]
  positivity

/-- Settles O32: below the pattern of 2π every pattern is finite with sign 0, and such patterns are ordered as their values. -/
theorem legalPhasesAreTheInterval : Obligations.LegalPhasesAreTheInterval := by
  intro p
  have htwo : Config.TWO_PI_F.toNat = 0x40C90FDA + 1 := rfl
  rw [legalPhase_iff]
  refine ⟨by rw [htwo, Nat.lt_succ_iff], fun h => ?_, fun ⟨_, hs, _, hlt⟩ => (val_lt_iff_toNat_lt hs twoPi_msb).1 hlt⟩
  have hs : p.msb = false := BitVec.msb_eq_false_iff_two_mul_lt.2 (by omega)
  have hfin : isFinite p = true := (isFinite_iff p).2 (by rw [← toNat_of_msb hs]; omega)
  exact ⟨hfin, hs, val_nonneg hs, (val_lt_iff_toNat_lt hs twoPi_msb).2 h⟩

/-! ### The reset step -/

theorem stepOf_hundred : stepOf 0x42C80000#32 = some 0x3C696EB5#32 := by decide +kernel

/-- What a `SETP` with a finite step answers (R71). -/
theorem exec_setp_ok {freq amp st : Word} (h : stepOf freq = some st) (s : State) :
    exec (.setp freq amp) s = .next (respond codeOK st { s with amp := amp, astep := st }) := by
  simp only [exec, execSetp, h]

/-- Settles O43: both quotients round to the reset value of ASTEP, and 1.0 is the reset value of AMP. -/
theorem resetStepIsOneCyclePerFrame : Obligations.ResetStepIsOneCyclePerFrame :=
  ⟨by decide +kernel, exec_setp_ok stepOf_hundred State.reset⟩

end Sys2Proof.Machine
end

section
/-! The registers in every cycle of the signal level, in the middle of a command too (R21, R22, R96). -/

namespace Sys2Proof.Machine

/-- What every cycle keeps of the registers (R21, R22, R96, log 4). -/
structure RegistersLegal (s : State) : Prop where
  phase : legalPhase s.phase = true
  astep : isFinite s.astep = true
  wf : s.fb.wf
  tmr : s.tmr.toNat < 4410

theorem applyReset_registersLegal (s : State) : RegistersLegal (applyReset s) where
  phase := resetMeetsInvariant.phase
  astep := resetMeetsInvariant.astep
  wf := resetMeetsInvariant.wf
  tmr := resetMeetsInvariant.tmrBound

/-! ### A command -/

theorem RegistersLegal.respond {s : State} (h : RegistersLegal s) (code : BitVec 4) (data : Word) :
    RegistersLegal (respond code data s) := { h with }

theorem RegistersLegal.sinkPut {s : State} (h : RegistersLegal s) (es : List SinkEvent) : RegistersLegal (sinkPut es s) :=
  { h with }

theorem RegistersLegal.drop {s : State} (h : RegistersLegal s) : RegistersLegal (dropFrame s) :=
  { h with wf := Memory.wf_nil }

theorem RegistersLegal.fail {s : State} (h : RegistersLegal s) (cause : FailCause) (k : Nat) :
    RegistersLegal (fail cause k s) := by
  cases cause <;> exact { h.drop with }

theorem RegistersLegal.burstOutcome {s : State} (h : RegistersLegal s) (ws : List Sample) (draw : BurstDraw) :
    RegistersLegal (burstOutcome ws draw s) := by
  cases draw with
  | complete => exact (h.sinkPut _).drop.respond _ _
  | timeout k => exact (h.sinkPut (burstWords 0 (ws.take k.val))).fail .timeout k.val
  | sinkErr k => exact (h.sinkPut (burstWords 0 (ws.take k.val))).fail .sinkErr k.val
  | unfinished k ticks offering => exact { h with tmr := (Nat.mod_le _ _).trans_lt ticks.isLt }

theorem RegistersLegal.produced {s : State} (h : RegistersLegal s) (n : Nat) {vs : List Sample} (hv : vs.length = Config.N) :
    RegistersLegal (Machine.respond codeOK 0#32 { s with
      phase := (synth n s.phase s.astep).2, fb := s.fb.writeRun 0 (pairBytes vs), fv := true }) :=
  { h with
    phase := synth_legal h.astep n h.phase
    wf := Memory.writeRun_wf h.wf (by rw [pairBytes_length, hv]; decide) }

theorem exec_registersLegal {i : Instr} {s t : State} (h : RegistersLegal s) (hx : exec i s = .next t) :
    RegistersLegal t := by
  cases exec_answer hx with
  | nop | emitRefused | rdsr | rdfb => exact h.respond _ _
  | setpPartial | clrf => exact { h with }
  | setp hst => exact { h with astep := stepOf_finite hst }
  | step => exact { h with phase := advance_legal h.phase h.astep }
  | prod => exact h.produced _ (synth_length _ _ _)
  | burst => exact h.burstOutcome _ _

theorem runWord_registersLegal {word : CmdWord} {s t : State} (h : RegistersLegal s) (hx : runWord word s = .next t) :
    RegistersLegal t := by
  rcases runWord_next hx with ⟨i, -, hx⟩ | ⟨e, -, rfl⟩
  · exact exec_registersLegal h hx
  · exact h.respond _ _

/-! ### One cycle -/

/-- A cycle that accepts a command may only clear the count (R96). -/
theorem acceptCycle_registersLegal {s : State} (h : RegistersLegal s) (c : CycleIn) : RegistersLegal (acceptCycle c s) := by
  unfold acceptCycle
  dsimp only
  split
  · split
    · exact { h with tmr := show (0#13).toNat < 4410 by decide }
    · exact { h with }
  · exact { h with }
  · exact { h with }

theorem prodCycle_registersLegal {s : State} (h : RegistersLegal s) : RegistersLegal (prodCycle s) := by
  have hphase := advance_legal h.phase h.astep
  have hk : s.k.val < 441 := s.k.isLt
  have hwf (v : Sample) : ((s.fb.writeWord (2 * s.k.val) v).writeWord (2 * s.k.val + 1) v).wf :=
    Memory.writeWord_wf (Memory.writeWord_wf h.wf v (show 2 * s.k.val < 882 by omega)) v
      (show 2 * s.k.val + 1 < 882 by omega)
  unfold prodCycle
  split <;> exact { h with phase := hphase, wf := hwf _ }

/-- A burst that ends clears the count (R96). -/
theorem endBurst_registersLegal {s : State} (h : RegistersLegal s) (c : CycleIn) (aborted : Bool) :
    RegistersLegal (endBurst c aborted s) :=
  { h with tmr := show (0#13).toNat < 4410 by decide }

theorem transfer_next {s t : State} {after : State → State} (h : transfer s after = .next t) :
    ∃ v, s.fb.readWord s.w.val = some v ∧ t = after (sinkPut [burstWord s.w.val v] s) := by
  unfold transfer at h
  split at h
  · cases h
    exact ⟨_, ‹_›, rfl⟩
  · cases h

/-- A burst that goes on counts at most one pulse, and moves only the word index, the offer and what the sink has (R96). -/
theorem burstGoesOn_next {c : CycleIn} {s t : State} (h : burstGoesOn c s = .next t) :
    ∃ w v log, t = { s with
      tmr := if c.fsCe then s.tmr + 1#13 else s.tmr, w := w, snkValid := v, sinkLog := log } := by
  have htick : (if c.fsCe then { s with tmr := s.tmr + 1#13 } else s) =
      { s with tmr := if c.fsCe then s.tmr + 1#13 else s.tmr } := by cases c.fsCe <;> rfl
  simp only [burstGoesOn, htick] at h
  split at h
  · obtain ⟨v, -, rfl⟩ := transfer_next h
    exact ⟨_, _, _, rfl⟩
  · cases h
    exact ⟨_, _, _, rfl⟩

/-- The pulse that would reach the bound ends the burst, so a burst that goes on stays below it (R96). -/
theorem burstGoesOn_registersLegal {c : CycleIn} {s t : State} (h : RegistersLegal s)
    (hpulse : ¬(c.fsCe && s.tmr.toNat == Config.TIMEOUT_TICKS - 1) = true) (hg : burstGoesOn c s = .next t) :
    RegistersLegal t := by
  obtain ⟨w, v, log, rfl⟩ := burstGoesOn_next hg
  have hlt := h.tmr
  have htmr : (if c.fsCe then s.tmr + 1#13 else s.tmr).toNat < 4410 := by
    cases hce : c.fsCe with
    | false => exact hlt
    | true =>
      have hne : s.tmr.toNat ≠ 4409 := by simpa [hce] using hpulse
      simp only [if_true, BitVec.toNat_add, BitVec.toNat_ofNat]
      omega
  exact { h with tmr := htmr }

theorem burstCycle_registersLegal {c : CycleIn} {s t : State} (h : RegistersLegal s) (hx : burstCycle c s = .next t) :
    RegistersLegal t := by
  unfold burstCycle at hx
  split at hx
  · cases hx
    exact endBurst_registersLegal (h.fail _ _) c true
  · split at hx
    · obtain ⟨v, -, rfl⟩ := transfer_next hx
      exact endBurst_registersLegal ((h.sinkPut _).drop.respond _ _) c false
    · split at hx
      · cases hx
        exact endBurst_registersLegal (h.fail _ _) c true
      · exact burstGoesOn_registersLegal h ‹_› hx

theorem execCycle_registersLegal {c : CycleIn} {s t : State} (h : RegistersLegal s) (hx : execCycle c s = .next t) :
    RegistersLegal t := by
  unfold execCycle at hx
  split at hx
  · exact burstCycle_registersLegal h hx
  · split at hx
    · cases hx
      exact h
    · split at hx
      · cases hx
        exact { h with }
      · split at hx
        · cases hx
          exact prodCycle_registersLegal h
        · exact runWord_registersLegal h hx

theorem cycle_registersLegal {c : CycleIn} {s t : State} (h : RegistersLegal s) (hx : cycle c s = .next t) :
    RegistersLegal t := by
  have hquiet : RegistersLegal { s with snkAbort := false } := { h with }
  cases hrst : c.rst with
  | true =>
    rw [cycle_rst hrst, Host.Outcome.next.injEq] at hx
    exact hx ▸ applyReset_registersLegal s
  | false =>
    cases hs : s.seq with
    | idle =>
      rw [cycle_idle hrst hs, Host.Outcome.next.injEq] at hx
      subst hx
      split
      · exact acceptCycle_registersLegal hquiet c
      · exact hquiet
    | exec =>
      rw [cycle_exec hrst hs] at hx
      exact execCycle_registersLegal hquiet hx
    | resp =>
      rw [cycle_resp hrst hs, Host.Outcome.next.injEq] at hx
      subst hx
      split <;> exact { h with }

/-- Settles O60: a cycle resets, accepts a command, does a piece of the command in execution, or holds its response. -/
theorem cycleKeepsRegistersLegal : Obligations.CycleKeepsRegistersLegal := by
  intro s t c hp ha hw ht hx
  obtain ⟨hp', ha', hw', ht'⟩ := cycle_registersLegal ⟨hp, ha, hw, ht⟩ hx
  exact ⟨hp', ha', hw', ht'⟩

end Sys2Proof.Machine
end

section
/-! The byte view of the frame buffer: a word reads as its two bytes, the low one first (R42). -/

namespace Sys2Proof.Machine

theorem loByte_append (hi lo : Byte) : loByte (hi ++ lo) = lo := by
  rw [loByte, BitVec.extractLsb'_append_eq_of_add_le (by decide)]
  exact BitVec.extractLsb'_eq_self

theorem hiByte_append (hi lo : Byte) : hiByte (hi ++ lo) = hi := by
  rw [hiByte, BitVec.extractLsb'_append_eq_of_le (by decide)]
  exact BitVec.extractLsb'_eq_self

/-- A word has a value where both of its bytes have one, and they are its low and its high byte (R42). -/
theorem readWord_eq_some_iff {m : Memory} {i : Nat} {v : Sample} :
    m.readWord i = some v ↔ m.readByte (2 * i) = some (loByte v) ∧ m.readByte (2 * i + 1) = some (hiByte v) := by
  constructor
  · intro h
    unfold Memory.readWord at h
    split at h
    · next lo hi hlo hhi =>
      cases h
      exact ⟨hlo.trans (congrArg some (loByte_append hi lo).symm), hhi.trans (congrArg some (hiByte_append hi lo).symm)⟩
    · cases h
  · rintro ⟨hlo, hhi⟩
    simp only [Memory.readWord, hlo, hhi, hi_append_lo]

/-- Settles O14: the value of a word is its high byte before its low byte. -/
theorem byteViewLittleEndian : Obligations.ByteViewLittleEndian := fun _ _ _ h => readWord_eq_some_iff.1 h

end Sys2Proof.Machine
end

section
/-! How a burst ends: by `snk_err`, by the transfer of word 881 or by the pulse that reaches the bound (R96), so by the 4410th
pulse at the latest (R49, R135); and `snk_abort`, the pulse of a burst that ended by a failure (R48). -/

namespace Sys2Proof.Machine

/-! ### A cycle of a burst -/

/-- Everything a cycle of a burst can leave: a failure, the end of the frame, or a burst that goes on short of its bound (R96). -/
theorem burstCycle_cases {c : CycleIn} {s t : State} (h : burstCycle c s = .next t) :
    (∃ cause, t = endBurst c true (fail cause s.w.val s)) ∨
      (∃ v, t = endBurst c false
        (respond codeOK (BitVec.ofNat 32 Config.FRAME_WORDS) (dropFrame (sinkPut [burstWord s.w.val v] s)))) ∨
      ((c.fsCe && s.tmr.toNat == Config.TIMEOUT_TICKS - 1) = false ∧ burstGoesOn c s = .next t) := by
  unfold burstCycle at h
  split at h
  · cases h
    exact .inl ⟨.sinkErr, rfl⟩
  · split at h
    · obtain ⟨v, -, rfl⟩ := transfer_next h
      exact .inr (.inl ⟨v, rfl⟩)
    · split at h
      · cases h
        exact .inl ⟨.timeout, rfl⟩
      · exact .inr (.inr ⟨Bool.eq_false_iff.2 ‹_›, h⟩)

/-! ### The end of a burst -/

/-- The burst is over and its response waits to be offered or is on offer (R63, R97). -/
structure BurstOver (s : State) : Prop where
  burst : s.burst = false
  rsp : s.rsp.isSome = true
  seq : s.seq ≠ .idle

theorem endBurst_over {s : State} (h : s.rsp.isSome = true) (c : CycleIn) (aborted : Bool) :
    BurstOver (endBurst c aborted s) where
  burst := rfl
  rsp := h
  seq := by cases hg : c.go <;> simp [endBurst, hg]

theorem fail_rsp_isSome (cause : FailCause) (k : Nat) (s : State) : (fail cause k s).rsp.isSome = true := by
  cases cause <;> rfl

theorem cycle_over {c : CycleIn} {s : State} (h : BurstOver s) (hs : s.seq = .exec) (hc : c.rst = false) :
    ∃ t, cycle c s = .next t ∧ BurstOver t := by
  obtain ⟨hb, hr, -⟩ := h
  cases hg : c.go with
  | false => exact ⟨_, cycle_waits hc hs hb hg, hb, hr, by simp [hs]⟩
  | true => exact ⟨_, cycle_responds hc hs hb hg hr, hb, hr, by simp⟩

/-- A burst that is over stays so until its response is offered. -/
theorem run_over : ∀ {cs : List CycleIn} {s : State}, BurstOver s → (∀ x ∈ cs, x.rst = false) →
    ∃ t, runToResponse cs s = .next t ∧ BurstOver t
  | [], s, h, _ => ⟨s, rfl, h⟩
  | c :: cs, s, h, hc => by
    obtain ⟨hc0, hcs⟩ := List.forall_mem_cons.1 hc
    cases hs : s.seq with
    | idle => exact absurd hs h.seq
    | resp => exact ⟨s, runToResponse_resp hs _, h⟩
    | exec =>
      obtain ⟨u, hu, hover⟩ := cycle_over h hs hc0
      rw [runToResponse_cons (by simp [hs]) hu]
      exact run_over hover hcs

/-! ### The count of pulses -/

/-- Short of its bound the count of a burst goes up by one with each pulse of `fs_ce` (R96, R135). -/
theorem count_pulse {n : BitVec 13} {ce : Bool} (hn : n.toNat < 4410)
    (hpulse : (ce && n.toNat == Config.TIMEOUT_TICKS - 1) = false) :
    (if ce then n + 1#13 else n).toNat = n.toNat + ce.toNat ∧ n.toNat + ce.toNat < 4410 := by
  cases ce with
  | false => exact ⟨rfl, hn⟩
  | true =>
    have hne : n.toNat ≠ 4409 := by simpa using hpulse
    simp only [if_true, BitVec.toNat_add, BitVec.toNat_ofNat, Bool.toNat_true]
    omega

theorem pulses_cons (c : CycleIn) (cs : List CycleIn) :
    ((c :: cs).filter (fun x => x.fsCe)).length = c.fsCe.toNat + (cs.filter (fun x => x.fsCe)).length := by
  cases hc : c.fsCe <;> simp [hc, Nat.add_comm]

/-- A cycle of a burst ends it or counts its pulse below the bound (R96). -/
theorem cycle_burst_count {c : CycleIn} {s : State} (hc : c.rst = false) (hs : s.seq = .exec) (hb : s.burst = true)
    (hf : completeFrame s.fb) (hn : s.tmr.toNat < 4410) :
    ∃ t, cycle c s = .next t ∧ (BurstOver t ∨
      t.seq = .exec ∧ t.burst = true ∧ t.fb = s.fb ∧ t.tmr.toNat = s.tmr.toNat + c.fsCe.toNat ∧
        s.tmr.toNat + c.fsCe.toNat < 4410) := by
  rw [cycle_burst hc hs hb]
  obtain ⟨t, ht⟩ := burstCycle_next (c := c) (s := { s with snkAbort := false }) hf
  refine ⟨t, ht, ?_⟩
  rcases burstCycle_cases ht with ⟨cause, rfl⟩ | ⟨v, rfl⟩ | ⟨hpulse, hg⟩
  · exact .inl (endBurst_over (fail_rsp_isSome _ _ _) c true)
  · exact .inl (endBurst_over rfl c false)
  · obtain ⟨w, v, log, rfl⟩ := burstGoesOn_next hg
    exact .inr ⟨hs, hb, rfl, count_pulse hn hpulse⟩

/-- Settles O54, by induction on the cycles: each ends the burst or counts its pulse below 4410, so cycles that hold all the pulses
that are left end it. -/
theorem burstEndsByPulse4410 : Obligations.BurstEndsByPulse4410 := by
  intro s cs
  induction cs generalizing s with
  | nil =>
    intro _ _ _ hn _ hp
    exact absurd hn (Nat.not_lt.2 (by simpa using hp))
  | cons c cs ih =>
    intro hs hb hf hn hc hp
    obtain ⟨hc0, hcs⟩ := List.forall_mem_cons.1 hc
    obtain ⟨u, hu, hcase⟩ := cycle_burst_count hc0 hs hb hf hn
    rw [runToResponse_cons (by simp [hs]) hu]
    rcases hcase with hover | ⟨hus, hub, huf, hcount, hlt⟩
    · obtain ⟨t, ht, hover⟩ := run_over hover hcs
      exact ⟨t, ht, hover.burst, hover.rsp⟩
    · refine ih u hus hub (huf ▸ hf) (hcount ▸ hlt) hcs ?_
      rwa [hcount, Nat.add_assoc, ← pulses_cons]

/-! ### The abort pulse -/

/-- No command moves `snk_abort` (R48). -/
theorem exec_snkAbort {i : Instr} {s t : State} (h : exec i s = .next t) : t.snkAbort = s.snkAbort := by
  cases exec_answer h with
  | burst =>
    obtain ⟨-, -, -, -, -, -, habort, -⟩ := burstOutcome_frame _ s.pins.draw s
    exact habort
  | prod => exact respond_snkAbort _ _ _
  | nop | setp | setpPartial | step | emitRefused | rdsr | rdfb | clrf => rfl

theorem runWord_snkAbort {word : CmdWord} {s t : State} (h : runWord word s = .next t) : t.snkAbort = s.snkAbort := by
  rcases runWord_next h with ⟨i, -, hx⟩ | ⟨e, -, rfl⟩
  · exact exec_snkAbort hx
  · rfl

theorem acceptCycle_snkAbort (c : CycleIn) (s : State) : (acceptCycle c s).snkAbort = false := by
  unfold acceptCycle
  dsimp only
  split
  · split <;> rfl
  · rfl
  · rfl

theorem prodCycle_snkAbort (s : State) : (prodCycle s).snkAbort = s.snkAbort := by
  unfold prodCycle
  split <;> rfl

/-- `snk_abort` rises in a cycle of a burst alone, and that cycle ends the burst with nothing on offer (R48). -/
theorem burstCycle_snkAbort {c : CycleIn} {s t : State} (hs : s.snkAbort = false) (h : burstCycle c s = .next t)
    (ha : t.snkAbort = true) : t.burst = false ∧ t.snkValid = false := by
  rcases burstCycle_cases h with ⟨cause, rfl⟩ | ⟨v, rfl⟩ | ⟨-, hg⟩
  · exact ⟨rfl, rfl⟩
  · exact ⟨rfl, rfl⟩
  · obtain ⟨w, v, log, rfl⟩ := burstGoesOn_next hg
    exact absurd (hs.symm.trans ha) Bool.false_ne_true

theorem execCycle_snkAbort {c : CycleIn} {s t : State} (hb : s.burst = false) (h : execCycle c s = .next t) :
    t.snkAbort = s.snkAbort := by
  simp only [execCycle, hb, Bool.false_eq_true, if_false] at h
  split at h
  · cases h
    rfl
  · split at h
    · cases h
      rfl
    · split at h
      · cases h
        exact prodCycle_snkAbort s
      · exact runWord_snkAbort h

theorem cycle_snkAbort {c : CycleIn} {s t : State} (h : cycle c s = .next t) (ha : t.snkAbort = true) :
    s.burst = true ∧ t.burst = false ∧ t.snkValid = false := by
  have hlow (hf : t.snkAbort = false) : s.burst = true ∧ t.burst = false ∧ t.snkValid = false :=
    absurd (hf.symm.trans ha) Bool.false_ne_true
  cases hrst : c.rst with
  | true =>
    rw [cycle_rst hrst, Host.Outcome.next.injEq] at h
    exact hlow (h ▸ rfl)
  | false =>
    cases hs : s.seq with
    | idle =>
      rw [cycle_idle hrst hs, Host.Outcome.next.injEq] at h
      refine hlow (h ▸ ?_)
      split
      · exact acceptCycle_snkAbort c _
      · rfl
    | exec =>
      cases hb : s.burst with
      | true =>
        rw [cycle_burst hrst hs hb] at h
        exact ⟨rfl, burstCycle_snkAbort rfl h ha⟩
      | false =>
        rw [cycle_exec hrst hs] at h
        exact hb ▸ hlow (execCycle_snkAbort (s := { s with snkAbort := false }) hb h)
    | resp =>
      rw [cycle_resp hrst hs, Host.Outcome.next.injEq] at h
      refine hlow (h ▸ ?_)
      split <;> rfl

/-- Settles O58: only a cycle of a burst raises `snk_abort`, and it ends that burst, so the next cycle does not raise it again. -/
theorem abortPulseLastsOneCycle : Obligations.AbortPulseLastsOneCycle := by
  intro s t c h ha
  obtain ⟨-, hover, hoffer⟩ := cycle_snkAbort h ha
  refine ⟨hoffer, fun c' u hu => Bool.eq_false_iff.2 fun hu' => ?_⟩
  obtain ⟨hburst, -, -⟩ := cycle_snkAbort hu hu'
  exact absurd (hover.symm.trans hburst) Bool.false_ne_true

end Sys2Proof.Machine
end

section
/-! The offer of a word: what the port shows, and what a cycle of the burst makes of it (R45 to R47). -/

namespace Sys2Proof.Machine

/-! ### The port -/

/-- The word on offer and its tags (R45). -/
theorem outputs_offer {s : State} (h : s.snkValid = true) :
    (outputs s).snkValid = true ∧ (outputs s).snkData = s.fb.readWord s.w.val ∧
      (outputs s).snkChan = some (decide (s.w.val % 2 = 1)) ∧ (outputs s).snkLast = decide (s.w.val = 881) :=
  ⟨h, if_pos h, if_pos h, congrArg (· && atLastWord s) h⟩

theorem burstWord_eq (i : Nat) (v : Sample) : burstWord i v = .word v (decide (i % 2 = 1)) (decide (i = 881)) := rfl

theorem atLastWord_iff (s : State) : atLastWord s = true ↔ s.w.val = 881 := beq_iff_eq

/-! ### A burst that goes on -/

/-- This cycle's pulse is not the one that reaches the bound (R96, R135). -/
theorem pulse_eq_false {ce : Bool} {n : BitVec 13} (h : ¬(ce = true ∧ n = 4409#13)) :
    (ce && n.toNat == Config.TIMEOUT_TICKS - 1) = false := by
  refine Bool.eq_false_iff.2 fun hp => h ?_
  obtain ⟨hce, hn⟩ := Bool.and_eq_true_iff.1 hp
  exact ⟨hce, BitVec.eq_of_toNat_eq (beq_iff_eq.1 hn)⟩

theorem transfer_some {s : State} {v : Sample} (h : s.fb.readWord s.w.val = some v) (after : State → State) :
    transfer s after = .next (after (sinkPut [burstWord s.w.val v] s)) := by
  simp only [transfer, h]

/-- An offer the sink does not take stays (R46). -/
theorem burstGoesOn_held {c : CycleIn} {s : State} (hv : s.snkValid = true) (hr : c.snkReady = false) :
    burstGoesOn c s = .next { s with tmr := if c.fsCe then s.tmr + 1#13 else s.tmr } := by
  unfold burstGoesOn
  cases c.fsCe <;> simp [hv, hr]

/-- An offer the sink takes is received, and the next word is up (R46, R47). -/
theorem burstGoesOn_taken {c : CycleIn} {s : State} {v : Sample} (hv : s.snkValid = true) (hr : c.snkReady = true)
    (hw : s.fb.readWord s.w.val = some v) :
    burstGoesOn c s = .next { sinkPut [burstWord s.w.val v] s with
      tmr := if c.fsCe then s.tmr + 1#13 else s.tmr, w := s.w + 1, snkValid := c.go } := by
  unfold burstGoesOn
  cases c.fsCe <;> simp [hv, hr, transfer_some, hw, sinkPut]

/-! ### A cycle of an offer -/

/-- A cycle without a failure in which the sink does not take the offer holds it (R46). -/
theorem cycle_held {c : CycleIn} {s : State} (hc : c.rst = false) (hs : s.seq = .exec) (hb : s.burst = true)
    (hv : s.snkValid = true) (hr : c.snkReady = false) (he : c.snkErr = false)
    (ht : ¬(c.fsCe = true ∧ s.tmr = 4409#13)) :
    cycle c s = .next { s with snkAbort := false, tmr := if c.fsCe then s.tmr + 1#13 else s.tmr } := by
  rw [cycle_goesOn hc hs hb he (by simp [hr]) (pulse_eq_false ht)]
  exact burstGoesOn_held hv hr

/-- A cycle in which the sink takes word 881 ends the burst (R46, R97). -/
theorem cycle_taken_last {c : CycleIn} {s : State} {v : Sample} (hc : c.rst = false) (hs : s.seq = .exec)
    (hb : s.burst = true) (hv : s.snkValid = true) (hr : c.snkReady = true) (he : c.snkErr = false)
    (hw : s.fb.readWord s.w.val = some v) (hl : s.w.val = 881) :
    cycle c s = .next (endBurst c false (respond codeOK (BitVec.ofNat 32 Config.FRAME_WORDS)
      (dropFrame (sinkPut [burstWord s.w.val v] { s with snkAbort := false })))) := by
  rw [cycle_lastWord hc hs hb he (by simp [hv, hr, (atLastWord_iff s).2 hl])]
  exact transfer_some (s := { s with snkAbort := false }) hw _

/-- A cycle without a failure in which the sink takes another word goes on with the next one (R46, R47). -/
theorem cycle_taken {c : CycleIn} {s : State} {v : Sample} (hc : c.rst = false) (hs : s.seq = .exec)
    (hb : s.burst = true) (hv : s.snkValid = true) (hr : c.snkReady = true) (he : c.snkErr = false)
    (hw : s.fb.readWord s.w.val = some v) (hl : s.w.val ≠ 881) (ht : ¬(c.fsCe = true ∧ s.tmr = 4409#13)) :
    cycle c s = .next { sinkPut [burstWord s.w.val v] { s with snkAbort := false } with
      tmr := if c.fsCe then s.tmr + 1#13 else s.tmr, w := s.w + 1, snkValid := c.go } := by
  have hlast : atLastWord s = false := Bool.eq_false_iff.2 fun h => hl ((atLastWord_iff s).1 h)
  rw [cycle_goesOn hc hs hb he (by simp [hlast]) (pulse_eq_false ht)]
  exact burstGoesOn_taken hv hr hw

/-- Settles O57: an offer that is not taken is held; one that is taken is received as shown, and ends the burst or moves it on. -/
theorem offerHeldUntilTransfer : Obligations.OfferHeldUntilTransfer := by
  intro s c hc hs hb hv
  obtain ⟨hvalid, hdata, hchan, hlast⟩ := outputs_offer hv
  refine ⟨⟨hvalid, hdata, hchan, hlast⟩, fun hr he ht => ?_, fun v hw hr he ht => ?_⟩
  · exact ⟨_, cycle_held hc hs hb hv hr he ht, rfl, rfl, hvalid, rfl, rfl, rfl⟩
  · have hreceived : s.sinkLog ++ [burstWord s.w.val v] =
        s.sinkLog ++ [.word v (decide (s.w.val % 2 = 1)) (outputs s).snkLast] := by rw [burstWord_eq, hlast]
    by_cases hl : s.w.val = 881
    · exact ⟨_, _, cycle_taken_last hc hs hb hv hr he hw hl, hdata.trans hw, hchan, hreceived,
        fun hlt => absurd hl hlt.ne⟩
    · have hnext : s.w.val < 881 → (s.w + 1).val = s.w.val + 1 := Fin.val_add_one_of_lt
      exact ⟨_, _, cycle_taken hc hs hb hv hr he hw hl (ht.resolve_left hl), hdata.trans hw, hchan, hreceived,
        fun hlt => ⟨hb, hs, hnext hlt, rfl⟩⟩

end Sys2Proof.Machine
end

section
/-! The decoder: what it makes of the word of each opcode, and what it looks at (R55, R57 to R60). -/

namespace Sys2Proof.Machine

/-! ### The word of each opcode -/

@[simp] theorem decode_mk_nop (a b : Word) : decode (CmdWord.mk 0x0#4 a b) = .ok .nop := by
  rw [decode, Laws.op_mk]
  rfl

@[simp] theorem decode_mk_setp (a b : Word) : decode (CmdWord.mk 0x1#4 a b) = .ok (.setp a b) := by
  rw [decode, Laws.op_mk, Laws.a_mk, Laws.b_mk]
  rfl

@[simp] theorem decode_mk_step (a b : Word) : decode (CmdWord.mk 0x2#4 a b) = .ok .step := by
  rw [decode, Laws.op_mk]
  rfl

@[simp] theorem decode_mk_prod (a b : Word) : decode (CmdWord.mk 0x3#4 a b) = .ok .prod := by
  rw [decode, Laws.op_mk]
  rfl

@[simp] theorem decode_mk_emit (a b : Word) : decode (CmdWord.mk 0x4#4 a b) = .ok .emit := by
  rw [decode, Laws.op_mk]
  rfl

@[simp] theorem decode_mk_rdsr (a b : Word) : decode (CmdWord.mk 0x5#4 a b) = .ok (.rdsr a) := by
  rw [decode, Laws.op_mk, Laws.a_mk]
  rfl

@[simp] theorem decode_mk_rdfb (a b : Word) : decode (CmdWord.mk 0x6#4 a b) = .ok (.rdfb a) := by
  rw [decode, Laws.op_mk, Laws.a_mk]
  rfl

@[simp] theorem decode_mk_clrf (a b : Word) : decode (CmdWord.mk 0x7#4 a b) = .ok (.clrf a) := by
  rw [decode, Laws.op_mk, Laws.a_mk]
  rfl

/-- Settles O2: the word of each command is the one of its opcode, which decodes to it with the operands it carries. -/
theorem encodeThenDecode : Obligations.EncodeThenDecode := by
  intro i
  cases i with
  | nop => exact decode_mk_nop _ _
  | setp freq amp => exact decode_mk_setp freq amp
  | step => exact decode_mk_step _ _
  | prod => exact decode_mk_prod _ _
  | emit => exact decode_mk_emit _ _
  | rdsr idx => exact decode_mk_rdsr idx _
  | rdfb idx => exact decode_mk_rdfb idx _
  | clrf mask => exact decode_mk_clrf mask _

/-! ### The opcode decides -/

/-- The opcode is the top four bits of the word (R55). -/
theorem op_toNat (c : CmdWord) : c.op.toNat = c.toNat / 2 ^ 64 := by
  have hc : c.toNat / 2 ^ 64 < 2 ^ 4 := by omega
  rw [CmdWord.op, BitVec.extractLsb'_toNat, Nat.shiftRight_eq_div_pow, Nat.mod_eq_of_lt hc]

/-- Opcodes 0 to 7 are the eight commands (R57). -/
theorem decode_of_op_lt {c : CmdWord} (h : c.op.toNat < 8) : ∃ i, decode c = .ok i ∧ i.opcode.toNat = c.op.toNat := by
  unfold decode
  split
  case h_9 => grind
  all_goals exact ⟨_, rfl, Eq.symm ‹_›⟩

/-- Opcodes 8 to 15 are reserved (R60). -/
theorem decode_of_le_op {c : CmdWord} (h : 8 ≤ c.op.toNat) : decode c = .error (.reservedOpcode c.op) := by
  unfold decode
  split
  case h_9 => rfl
  all_goals omega

/-- Settles O3: the opcode is the word's quotient by 2^64, and it lies below 8 as the word lies below 8 * 2^64. -/
theorem opcodeDecidesDecoding : Obligations.OpcodeDecidesDecoding := by
  intro c
  rw [← op_toNat, BitVec.ofNat_toNat, BitVec.setWidth_eq]
  have hop := op_toNat c
  exact ⟨fun h => decode_of_op_lt (by omega), fun h => decode_of_le_op (by omega)⟩

/-- Settles O1: thirteen words by evaluation of the decoder, the reserved opcodes by their number. -/
theorem specWordsDecode : Obligations.SpecWordsDecode := by
  refine ⟨rfl, rfl, rfl, rfl, rfl, rfl, rfl, rfl, rfl, rfl, rfl, rfl, rfl, fun op a b h => ?_⟩
  rw [decode_of_le_op (by rwa [Laws.op_mk]), Laws.op_mk]

/-! ### Unused operand bits -/

/-- Words that decode alike run alike. -/
theorem runWord_congr {word word' : CmdWord} (h : decode word = decode word') (s : State) :
    runWord word s = runWord word' s := by
  rw [runWord, runWord, h]

/-- `CLRF` reads bits 4:2 of its mask alone (R113). -/
theorem clearFlags_congr {mask mask' : Word} (h : ∀ n ∈ [2, 3, 4], mask.getLsbD n = mask'.getLsbD n) (s : State) :
    clearFlags mask s = clearFlags mask' s := by
  simp only [clearFlags, h 2 (by simp), h 3 (by simp), h 4 (by simp)]

theorem exec_clrf_congr {mask mask' : Word} (h : ∀ n ∈ [2, 3, 4], mask.getLsbD n = mask'.getLsbD n) (s : State) :
    exec (.clrf mask) s = exec (.clrf mask') s := by
  simp only [exec, execClrf, clearFlags_congr h]

/-- Settles O4: the decoder drops the unused fields, and `CLRF` reads three bits of its mask. -/
theorem unusedOperandBitsIgnored : Obligations.UnusedOperandBitsIgnored := by
  intro s a a' b b'
  refine ⟨fun op hop => ?_, fun op hop => runWord_congr ?_ s, fun op hop => runWord_congr ?_ s, fun hbits => ?_⟩
  · obtain ⟨i, hi, -⟩ := decode_of_op_lt (c := CmdWord.mk op a b) (by rwa [Laws.op_mk])
    exact ⟨i, hi⟩
  · simp only [List.mem_cons, List.not_mem_nil, or_false] at hop
    rcases hop with rfl | rfl | rfl | rfl <;> simp
  · simp only [List.mem_cons, List.not_mem_nil, or_false] at hop
    rcases hop with rfl | rfl <;> simp
  · rw [runWord_ok (decode_mk_clrf a b), runWord_ok (decode_mk_clrf a' b'), exec_clrf_congr hbits]

end Sys2Proof.Machine
end

section
/-! How a command ends (R121, R123): refused with nothing changed, answered, or as a burst that has not ended (R148, log 3). -/

namespace Sys2Proof.Machine

/-! ### Indices out of range -/

theorem selectRegister_eq_none_iff (idx : Word) (s : State) : selectRegister idx s = none ↔ 4 ≤ idx.toNat := by
  unfold selectRegister
  split
  case h_5 => grind
  all_goals simp [*]

theorem frameIndex_eq_none_iff (idx : Word) : frameIndex idx = none ↔ 882 ≤ idx.toNat := by
  simp [frameIndex]

theorem exec_rdsr_illegal {idx : Word} {s : State} (h : selectRegister idx s = none) :
    exec (.rdsr idx) s = .next (refuse codeILLEGAL s) := by
  simp only [exec, execRdsr, h]

/-- Settles O9: an index from 4 up selects no register, one from 882 up no frame word. -/
theorem outOfRangeIndicesRefused : Obligations.OutOfRangeIndicesRefused := by
  intro s idx
  exact ⟨fun h => exec_rdsr_illegal ((selectRegister_eq_none_iff idx s).2 h),
    fun h => exec_rdfb_illegal ((frameIndex_eq_none_iff idx).2 h) s⟩

theorem wellFormed_rdsr_iff (idx : Word) (s : State) :
    (Instr.rdsr idx).wellFormed = true ↔ selectRegister idx s ≠ none := by
  simp [Instr.wellFormed, selectRegister_eq_none_iff]

theorem wellFormed_rdfb_iff (idx : Word) : (Instr.rdfb idx).wellFormed = true ↔ frameIndex idx ≠ none := by
  simp [Instr.wellFormed, frameIndex_eq_none_iff]

/-! ### The ends of a command -/

/-- The ends of R121 and R123, each with its codes, and the burst that has not ended (R148). -/
inductive Ending (s : State) (i : Instr) (t : State) : Prop where
  | illegal (hwf : i.wellFormed = false) (ht : t = refuse codeILLEGAL s)
  | refused (hwf : i.wellFormed = true) {code : BitVec 4} (hcode : code = codeNOFRAME ∨ code = codeNOTREADY)
      (ht : t = refuse code s)
  | answered (hwf : i.wellFormed = true) {code : BitVec 4} {data : Word}
      (hcode : code = codeOK ∨ code = codeTIMEOUT ∨ code = codeSINKERR ∨ code = codeBADPARAM)
      (hrsp : t.rsp = some ⟨code, data⟩) (hseq : t.seq = .resp)
  | unfinished (hi : i = .emit) (hf : s.fv = true) (hd : s.pins.devReady = true)
      (hdraw : ∃ k ticks o, s.pins.draw = .unfinished k ticks o) (hrsp : t.rsp = s.rsp) (hb : t.burst = true)
      (hseq : t.seq = s.seq)

theorem Ending.ok {i : Instr} (hwf : i.wellFormed = true) (data : Word) (s u : State) :
    Ending s i (respond codeOK data u) :=
  .answered hwf (.inl rfl) rfl rfl

/-- A burst that starts ends as its draw says (R95, R148). -/
theorem burstOutcome_ending {s : State} (hf : s.fv = true) (hd : s.pins.devReady = true) (ws : List Sample) :
    Ending s .emit (burstOutcome ws s.pins.draw s) := by
  cases hdraw : s.pins.draw with
  | complete => exact .ok rfl _ s _
  | timeout k => exact .answered rfl (.inr (.inl rfl)) rfl rfl
  | sinkErr k => exact .answered rfl (.inr (.inr (.inl rfl))) rfl rfl
  | unfinished k ticks o => exact .unfinished rfl hf hd ⟨k, ticks, o, hdraw⟩ rfl rfl rfl

theorem exec_ending {i : Instr} {s t : State} (h : exec i s = .next t) : Ending s i t := by
  cases i with
  | nop => cases h; exact .ok rfl _ s _
  | setp freq amp =>
    rcases execSetp_next h with ⟨st, -, rfl⟩ | ⟨-, rfl⟩
    · exact .ok rfl _ s _
    · exact .answered rfl (.inr (.inr (.inr rfl))) rfl rfl
  | step => cases h; exact .ok rfl _ s _
  | prod =>
    rw [exec_prod, Host.Outcome.next.injEq] at h
    subst h
    exact .ok rfl _ s _
  | emit =>
    rcases execEmit_next h with ⟨-, rfl⟩ | ⟨-, -, rfl⟩ | ⟨ws, hf, hd, -, rfl⟩
    · exact .refused rfl (.inl rfl) rfl
    · exact .refused rfl (.inr rfl) rfl
    · exact burstOutcome_ending hf hd ws
  | rdsr idx =>
    have hwf := wellFormed_rdsr_iff idx s
    rcases execRdsr_next h with ⟨v, hv, rfl⟩ | ⟨hnone, rfl⟩
    · exact .ok (hwf.2 (by simp [hv])) v s s
    · exact .illegal (Bool.eq_false_iff.2 fun hw => hwf.1 hw hnone) rfl
  | rdfb idx =>
    have hwf := wellFormed_rdfb_iff idx
    rcases execRdfb_next h with ⟨hnone, rfl⟩ | ⟨n, hn, -, rfl⟩ | ⟨n, v, hn, -, -, rfl⟩
    · exact .illegal (Bool.eq_false_iff.2 fun hw => hwf.1 hw hnone) rfl
    · exact .refused (hwf.2 (by simp [hn])) (.inl rfl) rfl
    · exact .ok (hwf.2 (by simp [hn])) _ s s
  | clrf mask => cases h; exact .ok rfl _ s _

/-- Settles O51: `ILLEGAL` is the code of the ill-formed end alone, and the codes of a refusal are those of the ends that change
nothing; a burst that has not ended has no response. -/
theorem refusalsChangeNothing : Obligations.RefusalsChangeNothing := by
  intro i s t code data h hs ht
  cases exec_ending h with
  | illegal hwf hrefuse =>
    subst hrefuse
    cases ht
    exact ⟨by simp [hwf, codeILLEGAL], fun _ => ⟨rfl, rfl⟩⟩
  | refused hwf hcode hrefuse =>
    subst hrefuse
    cases ht
    refine ⟨?_, fun _ => ⟨rfl, rfl⟩⟩
    rcases hcode with rfl | rfl <;> simp [hwf, codeNOFRAME, codeNOTREADY]
  | answered hwf hcode hrsp hseq =>
    cases hrsp.symm.trans ht
    rcases hcode with rfl | rfl | rfl | rfl <;> simp [hwf, codeOK, codeTIMEOUT, codeSINKERR, codeBADPARAM]
  | unfinished hi hf hd hdraw hrsp hb hseq =>
    rw [hrsp, hs] at ht
    cases ht

/-! ### Every command answers -/

/-- With a complete frame while FV = 1 no command stops (R27, log 4). -/
theorem exec_next {s : State} (hw : s.fb.wf) (hc : s.fv = true → completeFrame s.fb) (i : Instr) :
    ∃ t, exec i s = .next t := by
  cases h : exec i s with
  | next t => exact ⟨t, rfl⟩
  | refused r => exact absurd h (exec_not_refused i s r)
  | fault f =>
    obtain ⟨hf, ⟨-, hnone⟩ | ⟨_, n, -, -, hnone⟩⟩ := exec_fault h
    · obtain ⟨ws, hws, -⟩ := frame_of_complete hw (hc hf)
      cases hws.symm.trans hnone
    · obtain ⟨hsome, -⟩ := hc hf
      simpa [hnone] using hsome n.val n.isLt

/-- Settles O48: the accepted command does not stop, and each of its ends has a code of R64 or is the unfinished burst. -/
theorem everyCommandAnswers : Obligations.EveryCommandAnswers := by
  intro i s word pins hinv _ _
  obtain ⟨t, ht⟩ := exec_next (s := accept word pins s) hinv.wf hinv.frame i
  refine ⟨t, ht, ?_⟩
  cases exec_ending ht with
  | illegal _ hrefuse =>
    subst hrefuse
    exact .inl ⟨codeILLEGAL, 0#32, rfl, by decide, rfl⟩
  | @refused _ code hcode hrefuse =>
    subst hrefuse
    exact .inl ⟨code, 0#32, rfl, by rcases hcode with rfl | rfl <;> decide, rfl⟩
  | @answered _ code data hcode hrsp hseq =>
    exact .inl ⟨code, data, hrsp, by rcases hcode with rfl | rfl | rfl | rfl <;> decide, hseq⟩
  | unfinished hi hf hd hdraw hrsp hb hseq => exact .inr ⟨hi, hf, hd, hdraw, hrsp, hb, hseq⟩

/-! ### Steps that run a given word -/

/-- A response ends its step on offer, or taken (R63, R149). -/
theorem settle_respond (code : BitVec 4) (data : Word) (s : State) :
    settle (respond code data s) = { respond code data s with seq := if s.pins.rspReady then .idle else .resp } := by
  cases hp : s.pins.rspReady <;> simp [settle, hp, respond]

/-- Settles O7: an idle block accepts the word, and its opcode is reserved. -/
theorem reservedOpcodesRefused : Obligations.ReservedOpcodesRefused := by
  intro s word pins rest hs hi hword
  have hop : 8 ≤ word.op.toNat := by
    rw [op_toNat]
    omega
  rw [step_command_idle hi hs, runWord_error (decode_of_le_op hop), settleResult, refuse, settle_respond]
  rfl

theorem tableWord_eq_some {nbits w : Nat} {c : CmdWord} (h : tableWord nbits w = some c) :
    c = BitVec.ofNat 68 (w % 2 ^ nbits) := by
  simp only [tableWord, Option.ite_none_right_eq_some, Option.some.injEq] at h
  obtain ⟨-, hc⟩ := h
  exact hc.symm

/-- The bits of a table row that decode to a command are its command word (R55, log 14). -/
theorem decode_of_decodeTableWord {nbits w : Nat} {i : Instr} (h : decodeTableWord nbits w = some i) :
    decode (BitVec.ofNat 68 (w % 2 ^ nbits)) = .ok i := by
  unfold decodeTableWord at h
  split at h
  · cases h
  · rename_i c hc
    rw [tableWord_eq_some hc] at h
    split at h
    · cases h
      assumption
    · cases h

/-- A step runs the word that the host just offered (R56, log 1). -/
theorem step_offerWord (word : CmdWord) (s : State) :
    step (offerWord word s) = settleResult (runWord word (accept word s.pins s)) :=
  step_command_idle (s := offerWord word s) rfl rfl

/-- Settles O6: a word of 68 bits is offered as it stands, and the step runs what it decodes to. -/
theorem fetchWordRunsNext : Obligations.FetchWordRunsNext := by
  intro s w i hw h
  have hmod : w % 2 ^ 72 = w := Nat.mod_eq_of_lt (by omega)
  have hd := decode_of_decodeTableWord h
  rw [hmod] at hd
  rw [State.withFetchWord, hmod, step_offerWord, runWord_ok hd]
  rfl

end Sys2Proof.Machine
end

section
/-! The handshakes of a busy block: the command in execution stays, and the response is held until it is taken (R56, R63, R149). -/

namespace Sys2Proof.Machine

/-! ### The command in execution -/

/-- No command is accepted on the way from `s` to `t`. -/
structure KeepsCommand (s t : State) : Prop where
  cmd : t.cmd = s.cmd
  inputs : t.inputs = s.inputs

theorem exec_keepsCommand {i : Instr} {s t : State} (h : exec i s = .next t) : KeepsCommand s t := by
  cases exec_answer h with
  | burst =>
    obtain ⟨-, -, -, -, -, hcmd, -, -, hinputs⟩ := burstOutcome_frame _ s.pins.draw s
    exact ⟨hcmd, hinputs⟩
  | prod => exact ⟨respond_cmd _ _ _, respond_inputs _ _ _⟩
  | nop | setp | setpPartial | step | emitRefused | rdsr | rdfb | clrf => exact ⟨rfl, rfl⟩

theorem runWord_keepsCommand {word : CmdWord} {s t : State} (h : runWord word s = .next t) : KeepsCommand s t := by
  rcases runWord_next h with ⟨i, -, hx⟩ | ⟨e, -, rfl⟩
  · exact exec_keepsCommand hx
  · exact ⟨rfl, rfl⟩

theorem prodCycle_keepsCommand (s : State) : KeepsCommand s (prodCycle s) := by
  unfold prodCycle
  split <;> exact ⟨rfl, rfl⟩

theorem fail_keepsCommand (cause : FailCause) (k : Nat) (s : State) : KeepsCommand s (fail cause k s) := by
  cases cause <;> exact ⟨rfl, rfl⟩

theorem burstCycle_keepsCommand {c : CycleIn} {s t : State} (h : burstCycle c s = .next t) : KeepsCommand s t := by
  rcases burstCycle_cases h with ⟨cause, rfl⟩ | ⟨v, rfl⟩ | ⟨-, hg⟩
  · obtain ⟨hcmd, hinputs⟩ := fail_keepsCommand cause s.w.val s
    exact ⟨hcmd, hinputs⟩
  · exact ⟨rfl, rfl⟩
  · obtain ⟨w, v, log, rfl⟩ := burstGoesOn_next hg
    exact ⟨rfl, rfl⟩

theorem execCycle_keepsCommand {c : CycleIn} {s t : State} (h : execCycle c s = .next t) : KeepsCommand s t := by
  unfold execCycle at h
  split at h
  · exact burstCycle_keepsCommand h
  · split at h
    · cases h
      exact ⟨rfl, rfl⟩
    · split at h
      · cases h
        exact ⟨rfl, rfl⟩
      · split at h
        · cases h
          exact prodCycle_keepsCommand s
        · exact runWord_keepsCommand h

/-- A cycle accepts a command only in IDLE (R56). -/
theorem cycle_keepsCommand {c : CycleIn} {s t : State} (hc : c.rst = false) (hs : s.seq ≠ .idle)
    (h : cycle c s = .next t) : KeepsCommand s t := by
  cases hq : s.seq with
  | idle => exact absurd hq hs
  | exec =>
    rw [cycle_exec hc hq] at h
    obtain ⟨hcmd, hinputs⟩ := execCycle_keepsCommand h
    exact ⟨hcmd, hinputs⟩
  | resp =>
    rw [cycle_resp hc hq, Host.Outcome.next.injEq] at h
    subst h
    split <;> exact ⟨rfl, rfl⟩

/-! ### The response -/

/-- The response on offer is on the port (R63). -/
theorem outputs_response {s : State} (h : s.seq = .resp) :
    (outputs s).rspValid = true ∧ (outputs s).rspStatus = s.rsp.map (·.status) ∧
      (outputs s).rspData = s.rsp.map (·.data) := by
  simp [outputs, h]

/-- Settles O59: in RESP the cycle reads `rsp_ready` alone, and no cycle outside IDLE accepts a command. -/
theorem responseHeldUntilTaken : Obligations.ResponseHeldUntilTaken := by
  intro s c hc
  refine ⟨fun hs hr => ⟨?_, outputs_response hs⟩, fun hs hr => ?_, fun hs => ⟨beq_eq_false_iff_ne.2 hs, fun t ht => ?_⟩⟩
  · simp only [cycle_resp hc hs, hr, Bool.false_eq_true, if_false]
  · simp only [cycle_resp hc hs, hr, if_true]
  · obtain ⟨hcmd, hinputs⟩ := cycle_keepsCommand hc hs ht
    exact ⟨hcmd, hinputs⟩

end Sys2Proof.Machine
end

section
/-! The commands `SETP` and `STEP` (R71, R72), and the phase they leave (R83). -/

namespace Sys2Proof.Machine

theorem exec_step (s : State) :
    exec .step s = .next (respond codeOK (sin7 (advance s.phase s.astep)) { s with phase := advance s.phase s.astep }) := rfl

/-- Settles O17: the meaning of `STEP` is the advance, then the sine. -/
theorem stepAdvancesAndSamples : Obligations.StepAdvancesAndSamples := ⟨decode_mk_step, exec_step⟩

/-- What a `SETP` whose step is not finite answers (R71). -/
theorem exec_setp_partial {freq amp : Word} (h : stepOf freq = none) (s : State) :
    exec (.setp freq amp) s = .next (partialEnd { s with amp := amp }) := by
  simp only [exec, execSetp, h]

/-! ### The step of a frequency -/

/-- The two operations that give the step of a frequency, evaluated left to right, and its test (R71). -/
def StepIsFinite (freq : Word) : Prop :=
  isFinite freq = true ∧ isFinite (fmul Config.TWO_PI_F freq) = true ∧
    isFinite (fdiv (fmul Config.TWO_PI_F freq) Config.FS_F) = true

theorem fmulAny_twoPi (freq : Word) :
    fmulAny Config.TWO_PI_F freq = if isFinite freq then finite? (fmul Config.TWO_PI_F freq) else none := by
  rw [fmulAny, show isFinite Config.TWO_PI_F = true by decide, Bool.true_and]

theorem fdivAny_fs (m : Word) :
    fdivAny m Config.FS_F = if isFinite m then finite? (fdiv m Config.FS_F) else none := by
  rw [fdivAny, show isFinite Config.FS_F = true by decide, Bool.and_true]

theorem stepOf_of_finite {freq : Word} (h : StepIsFinite freq) :
    stepOf freq = some (fdiv (fmul Config.TWO_PI_F freq) Config.FS_F) := by
  obtain ⟨hfreq, hm, hst⟩ := h
  simp [stepOf, fmulAny_twoPi, fdivAny_fs, finite?, hfreq, hm, hst]

theorem stepOf_of_not_finite {freq : Word} (h : ¬ StepIsFinite freq) : stepOf freq = none := by
  unfold StepIsFinite at h
  by_cases hfreq : isFinite freq = true
  · by_cases hm : isFinite (fmul Config.TWO_PI_F freq) = true
    · have hst : ¬ isFinite (fdiv (fmul Config.TWO_PI_F freq) Config.FS_F) = true := fun hst => h ⟨hfreq, hm, hst⟩
      simp [stepOf, fmulAny_twoPi, fdivAny_fs, finite?, hfreq, hm, hst]
    · simp [stepOf, fmulAny_twoPi, finite?, hfreq, hm]
  · simp [stepOf, fmulAny_twoPi, hfreq]

/-- Settles O15: the model's step is there exactly where frequency, product and quotient are finite. -/
theorem setpSetsParameters : Obligations.SetpSetsParameters :=
  ⟨decode_mk_setp, fun s _ _ =>
    ⟨fun h => exec_setp_ok (stepOf_of_finite h) s, fun h => exec_setp_partial (stepOf_of_not_finite h) s⟩⟩

/-! ### The threshold -/

theorem and_magnitude_toNat (u : Word) : (u &&& 0x7FFFFFFF#32).toNat = body u := by
  rw [BitVec.toNat_and, body, show (0x7FFFFFFF#32).toNat = 2 ^ 31 - 1 from rfl, Nat.and_two_pow_sub_one_eq_mod]

/-- The product by 2π grows with the pattern of the frequency (R13). -/
theorem body_fmul_twoPi (freq : Word) :
    body (fmul Config.TWO_PI_F freq) = rndMag (mag Config.TWO_PI_F * magOf (body freq)) (2 ^ 149) := by
  rw [fmul, rnd32_body, mag_eq freq]

theorem fmul_twoPi_mono {p q : Nat} (h : p ≤ q) :
    rndMag (mag Config.TWO_PI_F * magOf p) (2 ^ 149) ≤ rndMag (mag Config.TWO_PI_F * magOf q) (2 ^ 149) :=
  rndMag_mono (by positivity) (by positivity)
    (Nat.mul_le_mul_right _ (Nat.mul_le_mul_left _ (magOf_strictMono.monotone h)))

/-- The product overflows from this pattern on (R71). -/
theorem fmul_twoPi_finite_iff (freq : Word) :
    isFinite (fmul Config.TWO_PI_F freq) = true ↔ body freq ≤ 0x7E22F982 := by
  rw [isFinite_iff, body_fmul_twoPi]
  have hlast : rndMag (mag Config.TWO_PI_F * magOf 0x7E22F982) (2 ^ 149) = 0x7F7FFFFE := by decide +kernel
  have hfirst : rndMag (mag Config.TWO_PI_F * magOf 0x7E22F983) (2 ^ 149) = 0x7F800000 := by decide +kernel
  constructor
  · intro h
    by_contra hc
    have := fmul_twoPi_mono (show 0x7E22F983 ≤ body freq by omega)
    omega
  · intro h
    have := fmul_twoPi_mono h
    omega

/-- The division by a sample rate above 1 keeps a product finite (R71). -/
theorem fdiv_fs_finite {m : Word} (h : isFinite m = true) : isFinite (fdiv m Config.FS_F) = true := by
  rw [isFinite_iff] at h ⊢
  have hfs : 2 ^ 149 ≤ mag Config.FS_F := by decide +kernel
  have hle : rndMag (mag m * 2 ^ 149) (mag Config.FS_F) ≤ rndMag (magOf (body m) * 1) 1 := by
    refine rndMag_mono (by omega) Nat.one_pos ?_
    rw [mag_eq m, Nat.mul_one, Nat.mul_one]
    exact Nat.mul_le_mul_left _ hfs
  rw [rndMag_exact Nat.one_pos h.le] at hle
  rw [fdiv, rnd32_body]
  omega

theorem stepIsFinite_iff (freq : Word) : StepIsFinite freq ↔ body freq ≤ 0x7E22F982 := by
  constructor
  · rintro ⟨-, hm, -⟩
    exact (fmul_twoPi_finite_iff freq).1 hm
  · intro h
    have hm := (fmul_twoPi_finite_iff freq).2 h
    exact ⟨(isFinite_iff freq).2 (by omega), hm, fdiv_fs_finite hm⟩

/-- Settles O16: the product by 2π is finite exactly below the threshold, and its quotient is finite with it. -/
theorem setpRefusalThreshold : Obligations.SetpRefusalThreshold := by
  intro s a b
  have hiff := stepIsFinite_iff a
  rw [and_magnitude_toNat]
  by_cases h : StepIsFinite a
  · have hle := hiff.1 h
    refine ⟨_, exec_setp_ok (stepOf_of_finite h) s, ?_, ?_⟩
    · simpa [respond, codeOK] using Nat.lt_succ_of_le hle
    · simpa [respond, codeOK] using hle
  · have hlt : ¬ body a ≤ 0x7E22F982 := fun hle => h (hiff.2 hle)
    have hge : 0x7E22F983 ≤ body a := Nat.lt_of_not_le hlt
    refine ⟨_, exec_setp_partial (stepOf_of_not_finite h) s, ?_, ?_⟩
    · simpa [partialEnd, respond, codeBADPARAM] using hge
    · simpa [partialEnd, respond, codeBADPARAM] using hlt

/-! ### The phase after any commands of the oscillator -/

/-- The part of the invariant that the oscillator's commands need and keep (R21, R22). -/
def OscillatorLegal (s : State) : Prop := legalPhase s.phase = true ∧ isFinite s.astep = true

theorem exec_step_legal {s : State} (h : OscillatorLegal s) : ∃ t, exec .step s = .next t ∧ OscillatorLegal t :=
  ⟨_, exec_step s, advance_legal h.1 h.2, h.2⟩

theorem exec_setp_legal {s : State} (h : OscillatorLegal s) (freq amp : Word) :
    ∃ t, exec (.setp freq amp) s = .next t ∧ OscillatorLegal t := by
  cases hst : stepOf freq with
  | some st => exact ⟨_, exec_setp_ok hst s, h.1, stepOf_finite hst⟩
  | none => exact ⟨_, exec_setp_partial hst s, h⟩

theorem runCommands_cons {i : Instr} {s t : State} (h : exec i s = .next t) (rest : List Instr) :
    runCommands (i :: rest) s = runCommands rest t := by
  rw [runCommands, h]

/-- Settles O35, by induction on the commands: each answers a state whose phase is legal and whose step is finite. -/
theorem phaseStaysInRange : Obligations.PhaseStaysInRange := by
  intro s cmds hp hst hcmds
  induction cmds generalizing s with
  | nil => exact ⟨s, rfl, hp, hst⟩
  | cons i rest ih =>
    obtain ⟨hi, hrest⟩ := List.forall_mem_cons.1 hcmds
    have hnext : ∃ t, exec i s = .next t ∧ OscillatorLegal t := by
      rcases hi with rfl | ⟨f, b, rfl⟩
      · exact exec_step_legal ⟨hp, hst⟩
      · exact exec_setp_legal ⟨hp, hst⟩ f b
    obtain ⟨t, ht, hpt, hstt⟩ := hnext
    rw [runCommands_cons ht]
    exact ih t hpt hstt hrest

end Sys2Proof.Machine
end

section
/-! Results that need no rounding: a whole number of at most 2^24 steps of a binade is the magnitude of a pattern (R12, R13). -/

namespace Sys2Proof.Machine

/-- `n` units are the magnitude of a finite pattern (R12). -/
def Representable (n : Nat) : Prop := ∃ p < 0x7F800000, magOf p = n

theorem representable_mag {u : Word} (h : isFinite u = true) : Representable (mag u) :=
  ⟨body u, (isFinite_iff u).1 h, (mag_eq u).symm⟩

/-- Small significands are doubled until they fill their binade or reach the lowest one. -/
theorem exists_magOf_eq_mul_two_pow {j : Nat} (hj : j ≤ 2 ^ 24) (s : Nat) : ∃ p, magOf p = j * 2 ^ s := by
  induction s generalizing j with
  | zero => exact ⟨0 * 2 ^ 23 + j, magOf_significand hj (.inl rfl)⟩
  | succ s ih =>
    by_cases hfull : 2 ^ 23 ≤ j
    · exact ⟨(s + 1) * 2 ^ 23 + j, magOf_significand hj (.inr hfull)⟩
    · obtain ⟨p, hp⟩ := ih (j := 2 * j) (by omega)
      exact ⟨p, by rw [hp]; ring⟩

theorem magOf_infinity : magOf 0x7F800000 = 2 ^ 24 * 2 ^ 253 := by decide +kernel

theorem representable_mul_two_pow {j s : Nat} (hj : j ≤ 2 ^ 24) (hs : s ≤ 252) : Representable (j * 2 ^ s) := by
  obtain ⟨p, hp⟩ := exists_magOf_eq_mul_two_pow hj s
  refine ⟨p, magOf_strictMono.lt_iff_lt.1 ?_, hp⟩
  rw [hp, magOf_infinity]
  calc j * 2 ^ s ≤ 2 ^ 24 * 2 ^ 252 := Nat.mul_le_mul hj (Nat.pow_le_pow_right two_pos hs)
    _ < 2 ^ 24 * 2 ^ 253 := by norm_num

theorem representable_of_dvd {n s : Nat} (hd : 2 ^ s ∣ n) (hn : n ≤ 2 ^ 24 * 2 ^ s) (hs : s ≤ 252) : Representable n := by
  obtain ⟨j, rfl⟩ := hd
  rw [Nat.mul_comm]
  exact representable_mul_two_pow (Nat.le_of_mul_le_mul_right (Nat.mul_comm _ j ▸ hn) (by positivity)) hs

/-- From the foot of a binade up all magnitudes are multiples of its step. -/
theorem two_pow_dvd_magOf {k p : Nat} (h : (k + 1) * 2 ^ 23 ≤ p) : 2 ^ k ∣ magOf p := by
  rw [magOf, if_neg (by omega)]
  exact Dvd.dvd.mul_left (pow_dvd_pow 2 (by omega)) _

/-! ### Exact operations -/

theorem body_rnd32_magOf {p : Nat} (hp : p < 0x7F800000) (neg : Bool) : body (rnd32 neg (magOf p) 1) = p := by
  rw [rnd32_body, ← Nat.mul_one (magOf p), rndMag_exact Nat.one_pos hp.le]

theorem rnd32_finite_of_representable {n : Nat} (h : Representable n) (neg : Bool) : isFinite (rnd32 neg n 1) = true := by
  obtain ⟨p, hp, rfl⟩ := h
  rwa [isFinite_iff, body_rnd32_magOf hp]

theorem mag_rnd32_of_representable {n : Nat} (h : Representable n) (neg : Bool) : mag (rnd32 neg n 1) = n := by
  obtain ⟨p, hp, rfl⟩ := h
  rw [mag_eq, body_rnd32_magOf hp]

theorem units_rnd32_of_representable {n : Nat} (h : Representable n) (neg : Bool) :
    units (rnd32 neg n 1) = if neg then -(n : ℤ) else n := by
  rw [units, rnd32_msb, mag_rnd32_of_representable h]

theorem units_rnd32_natAbs {z : ℤ} (h : Representable z.natAbs) : units (rnd32 (decide (z < 0)) z.natAbs 1) = z := by
  rw [units_rnd32_of_representable h]
  simp only [decide_eq_true_iff]
  split <;> omega

theorem units_of_msb_false {u : Word} (h : u.msb = false) : units u = mag u := by
  rw [units, h]
  rfl

theorem units_invert (u : Word) : units (u ^^^ 0x80000000#32) = -units u := by
  rw [units, units, msb_invert, mag_eq, mag_eq, body_invert]
  cases u.msb <;> simp

/-- A sum that is representable is not rounded (R14). -/
theorem val_fadd_of_representable {a b : Word} (h : Representable (units a + units b).natAbs) :
    val (fadd a b) = val a + val b := by
  by_cases hz : units a + units b = 0
  · have hsum := (val_add_eq_zero_iff a b).2 hz
    rw [fadd_of_sum_zero hsum, hsum]
    split <;> exact (val_eq_zero_iff _).2 rfl
  · rw [val_add_eq_units, val_eq_units, fadd, if_neg hz, units_rnd32_natAbs h]

/-- A difference is not rounded that is a whole number of at most 2^24 of a step which both operands are multiples of (R14). -/
theorem val_fsub_of_dvd {a b : Word} {s : Nat} (ha : 2 ^ s ∣ mag a) (hb : 2 ^ s ∣ mag b) (hs : s ≤ 252)
    (hle : (units a - units b).natAbs ≤ 2 ^ 24 * 2 ^ s) : val (fsub a b) = val a - val b := by
  have hdvd : ∀ {u : Word}, 2 ^ s ∣ mag u → ((2 ^ s : ℕ) : ℤ) ∣ units u := fun {u} h => by
    rw [units]
    split
    · exact (Int.natCast_dvd_natCast.2 h).neg_right
    · exact Int.natCast_dvd_natCast.2 h
  rw [sub_eq_add_neg, ← val_invert, fsub]
  apply val_fadd_of_representable
  rw [units_invert, ← sub_eq_add_neg]
  exact representable_of_dvd (Int.natCast_dvd.1 (dvd_sub (hdvd ha) (hdvd hb))) hle hs

end Sys2Proof.Machine
end

section
/-! The phase accumulator (R73). -/

namespace Sys2Proof.Machine

/-! ### The sum -/

theorem body_fadd (a b : Word) : body (fadd a b) = rndMag (units a + units b).natAbs 1 := by
  by_cases hz : units a + units b = 0
  · have hzero : rndMag 0 1 = 0 := by decide
    rw [fadd, if_pos hz, hz, Int.natAbs_zero, hzero]
    split <;> rfl
  · rw [fadd, if_neg hz, rnd32_body]

theorem msb_fadd {a b : Word} (h : units a + units b ≠ 0) : (fadd a b).msb = decide (units a + units b < 0) := by
  rw [fadd, if_neg h, rnd32_msb]

/-- The magnitude of 2π in units. -/
theorem magOf_twoPi : magOf (body Config.TWO_PI_F) = 0xC90FDB * 2 ^ 128 := by decide +kernel

theorem legalPhase_msb {p : Word} (hp : legalPhase p = true) : p.msb = false :=
  ((legalPhasesAreTheInterval p).2.1 hp).2.1

theorem legalPhase_mag_lt {p : Word} (hp : legalPhase p = true) : mag p < 0xC90FDB * 2 ^ 128 := by
  rw [mag_eq, ← magOf_twoPi, magOf_strictMono.lt_iff_lt, ← toNat_of_msb (legalPhase_msb hp), ← toNat_of_msb twoPi_msb]
  exact (legalPhase_iff p).1 hp

theorem legalPhase_units {p : Word} (hp : legalPhase p = true) : 0 ≤ units p ∧ units p < 0xC90FDB * 2 ^ 128 := by
  have hlt := legalPhase_mag_lt hp
  rw [units_of_msb_false (legalPhase_msb hp)]
  omega

theorem units_eq (u : Word) : units u = if u.msb then -(mag u : ℤ) else mag u := rfl

theorem units_natAbs (u : Word) : (units u).natAbs = mag u := by
  rw [units]
  split <;> omega

/-- The sum of a legal phase and a finite step is finite (R73 fact (a)). -/
theorem fadd_phase_finite {p st : Word} (hp : legalPhase p = true) (hst : isFinite st = true) :
    isFinite (fadd p st) = true := by
  have hlargest : rndMag (magOf 0x7F7FFFFF + 0xC90FDB * 2 ^ 128) 1 = 0x7F7FFFFF := by decide +kernel
  have hmag : mag st ≤ magOf 0x7F7FFFFF := by
    rw [mag_eq]
    exact magOf_strictMono.monotone (Nat.le_of_lt_succ ((isFinite_iff st).1 hst))
  have hsum : (units p + units st).natAbs ≤ magOf 0x7F7FFFFF + 0xC90FDB * 2 ^ 128 := by
    have hle := Int.natAbs_add_le (units p) (units st)
    rw [units_natAbs, units_natAbs] at hle
    have := legalPhase_mag_lt hp
    omega
  have hle := rndMag_mono Nat.one_pos Nat.one_pos (Nat.mul_le_mul_right 1 hsum)
  rw [isFinite_iff, body_fadd]
  omega

/-! ### The floored remainder -/

/-- The floored remainder of two values is that of their units (R73). -/
theorem val_sub_mul_floor {t m : Word} (hm : m.msb = false) :
    val t - val m * (⌊val t / val m⌋ : ℚ) = ((units t % units m : ℤ) : ℚ) * (2 : ℚ) ^ (-149 : ℤ) := by
  have hquot : ⌊val t / val m⌋ = units t / units m := by
    rw [val_eq_units, val_eq_units, mul_div_mul_right _ _ unit_pos.ne', units_of_msb_false hm, Int.cast_natCast,
      Rat.floor_intCast_div_natCast]
  rw [hquot, Int.emod_def, val_eq_units, val_eq_units]
  push_cast
  ring

/-- The rounded remainder, before 2π is turned into 0 (R73). -/
def remainder (t : Word) : Word := rnd32 false (units t % units Config.TWO_PI_F).toNat 1

theorem wrap_eq (t : Word) : wrap t = if remainder t = Config.TWO_PI_F then 0x00000000#32 else remainder t := rfl

theorem units_emod_nonneg (t : Word) : 0 ≤ units t % units Config.TWO_PI_F :=
  Int.emod_nonneg _ twoPi_units_pos.ne'

theorem units_emod_lt (t : Word) : units t % units Config.TWO_PI_F < units Config.TWO_PI_F :=
  Int.emod_lt_of_pos _ twoPi_units_pos

theorem remainder_roundsTo (t : Word) :
    RoundsTo (((units t % units Config.TWO_PI_F : ℤ) : ℚ) * (2 : ℚ) ^ (-149 : ℤ)) (remainder t) := by
  have hr := rnd32_roundsTo false (units t % units Config.TWO_PI_F).toNat Nat.one_pos
  have hcast : (((units t % units Config.TWO_PI_F).toNat : ℕ) : ℚ) = ((units t % units Config.TWO_PI_F : ℤ) : ℚ) := by
    rw [← Int.cast_natCast, Int.toNat_of_nonneg (units_emod_nonneg t)]
  rwa [Nat.cast_one, div_one, hcast, signFactor, if_neg Bool.false_ne_true, one_mul] at hr

/-- Settles O33: in units of 2^-149 the remainder is that of integers, and the model rounds it once. -/
theorem advanceIsFlooredRemainder : Obligations.AdvanceIsFlooredRemainder := by
  intro p st hp hst t m r
  have hr : r = ((units t % units Config.TWO_PI_F : ℤ) : ℚ) * (2 : ℚ) ^ (-149 : ℤ) :=
    val_sub_mul_floor twoPi_msb
  have hm : m = (units Config.TWO_PI_F : ℚ) * (2 : ℚ) ^ (-149 : ℤ) := val_eq_units _
  refine ⟨fadd_phase_finite hp hst, ?_, ?_, remainder t, ?_, rnd32_msb _ _ _, ?_⟩
  · rw [hr]
    exact mul_nonneg (Int.cast_nonneg (units_emod_nonneg t)) unit_pos.le
  · rw [hr, hm, mul_lt_mul_iff_left₀ unit_pos, Int.cast_lt]
    exact units_emod_lt t
  · rw [hr]
    exact remainder_roundsTo t
  · rw [advance_eq hp hst, wrap_eq]
    rfl

/-- A representable remainder is not rounded, and it is below 2π (R73). -/
theorem val_wrap_of_representable {t : Word} (h : Representable (units t % units Config.TWO_PI_F).toNat) :
    val (wrap t) = ((units t % units Config.TWO_PI_F : ℤ) : ℚ) * (2 : ℚ) ^ (-149 : ℤ) := by
  have hunits : units (remainder t) = units t % units Config.TWO_PI_F := by
    rw [remainder, units_rnd32_of_representable h, if_neg Bool.false_ne_true, Int.toNat_of_nonneg (units_emod_nonneg t)]
  have hne : remainder t ≠ Config.TWO_PI_F := by
    intro heq
    rw [heq] at hunits
    exact (units_emod_lt t).ne hunits.symm
  rw [wrap_eq, if_neg hne, val_eq_units, hunits]

/-- The remainder of a magnitude by 2π: one below 2π is its own, and the others are multiples of the step of the binade of 2π. -/
theorem representable_mod_twoPi {t : Word} (ht : isFinite t = true) : Representable (mag t % (0xC90FDB * 2 ^ 128)) := by
  by_cases hbinade : 129 * 2 ^ 23 ≤ body t
  · have hdvd : 2 ^ 128 ∣ mag t := by
      rw [mag_eq]
      exact two_pow_dvd_magOf hbinade
    refine representable_of_dvd ((Nat.dvd_mod_iff (Nat.dvd_mul_left _ _)).2 hdvd) ?_ (by omega)
    have := Nat.mod_lt (mag t) (show 0xC90FDB * 2 ^ 128 > 0 by norm_num)
    omega
  · have hlt : mag t < 0xC90FDB * 2 ^ 128 := by
      rw [mag_eq, ← magOf_twoPi, magOf_strictMono.lt_iff_lt]
      have : body Config.TWO_PI_F = 0x40C90FDB := by decide
      omega
    rw [Nat.mod_eq_of_lt hlt]
    exact representable_mag ht

/-- Settles O34: the remainder of a sum that is not negative is representable. -/
theorem forwardAdvanceIsExact : Obligations.ForwardAdvanceIsExact := by
  intro p st hp hst hnonneg
  have hunits : units (fadd p st) = mag (fadd p st) := by
    rw [val_eq_units, mul_nonneg_iff_of_pos_right unit_pos, Int.cast_nonneg_iff] at hnonneg
    rw [← units_natAbs, Int.natAbs_of_nonneg hnonneg]
  have hmod : (units (fadd p st) % units Config.TWO_PI_F).toNat = mag (fadd p st) % (0xC90FDB * 2 ^ 128) := by
    rw [hunits, units_twoPi, magOf_twoPi, ← Int.natCast_mod, Int.toNat_natCast]
  rw [advance_eq hp hst, val_wrap_of_representable]
  · exact (val_sub_mul_floor twoPi_msb).symm
  · rw [hmod]
    exact representable_mod_twoPi (fadd_phase_finite hp hst)

/-! ### Steps that absorb the phase -/

/-- Neighbouring magnitudes from the foot of a binade up are at least its step apart. -/
theorem magOf_add_le_magOf_succ {k p : Nat} (h : (k + 1) * 2 ^ 23 ≤ p) : magOf p + 2 ^ k ≤ magOf (p + 1) := by
  have hfoot : 2 ^ 23 ≤ 2 ^ 23 + p % 2 ^ 23 ∧ 2 ^ 23 + p % 2 ^ 23 ≤ 2 ^ 24 := by omega
  have hp : (p / 2 ^ 23 - 1) * 2 ^ 23 + (2 ^ 23 + p % 2 ^ 23) = p := by omega
  have hstep : 2 ^ k ≤ 2 ^ (p / 2 ^ 23 - 1) := Nat.pow_le_pow_right two_pos (by omega)
  have hsame := magOf_significand (sh := p / 2 ^ 23 - 1) hfoot.2 (.inr hfoot.1)
  have hnext := magOf_significand_succ (sh := p / 2 ^ 23 - 1) hfoot.2 (.inr hfoot.1)
  rw [hp] at hsame hnext
  rw [Nat.succ_mul] at hnext
  omega

/-- What lies strictly between the half-way points to both neighbours of a magnitude rounds to it (R13). -/
theorem rndMag_eq_of_between {n p : Nat} (hp : p + 1 ≤ 0x7F800000) (hlow : magOf p + magOf (p + 1) < 2 * n)
    (hhigh : 2 * n < magOf (p + 1) + magOf (p + 1 + 1)) : rndMag n 1 = p + 1 := by
  have hraw : rndRaw n 1 = p + 1 := by
    rcases Nat.lt_trichotomy (rndRaw n 1) (p + 1) with hlt | heq | hgt
    · obtain ⟨hmid, -⟩ := rndRaw_upper (n := n) Nat.one_pos
      have h1 := magOf_strictMono.monotone (show rndRaw n 1 ≤ p by omega)
      have h2 := magOf_strictMono.monotone (show rndRaw n 1 + 1 ≤ p + 1 by omega)
      omega
    · exact heq
    · obtain ⟨q, hq⟩ : ∃ q, rndRaw n 1 = q + 1 := ⟨rndRaw n 1 - 1, by omega⟩
      obtain ⟨hmid, -⟩ := rndRaw_lower Nat.one_pos hq
      have h1 := magOf_strictMono.monotone (show p + 1 ≤ q by omega)
      have h2 := magOf_strictMono.monotone (show p + 1 + 1 ≤ q + 1 by omega)
      omega
  rw [rndMag_eq, hraw, Nat.min_eq_right hp]

/-- From magnitude 2^28 up both neighbours of a magnitude are at least 16 away, and 2π is below 8 (R73 fact (e)). -/
theorem fadd_huge_step {p st : Word} (hp : legalPhase p = true) (hst : isFinite st = true)
    (hhuge : 155 * 2 ^ 23 ≤ body st) : fadd p st = st := by
  have hplt := legalPhase_mag_lt hp
  have hbody := (isFinite_iff st).1 hst
  obtain ⟨q, hq⟩ : ∃ q, body st = q + 1 := ⟨body st - 1, by omega⟩
  have hbelow := magOf_add_le_magOf_succ (k := 153) (p := q) (by omega)
  have habove := magOf_add_le_magOf_succ (k := 153) (p := q + 1) (by omega)
  have hmag : mag st = magOf (q + 1) := by rw [mag_eq, hq]
  have hphase := units_of_msb_false (legalPhase_msb hp)
  have hstep := units_eq st
  have hsign : units p + units st < 0 ↔ st.msb = true := by
    split at hstep
    · exact iff_of_true (by omega) ‹_›
    · exact iff_of_false (by omega) ‹_›
  have hne : units p + units st ≠ 0 := by
    split at hstep <;> omega
  refine eq_of_body (by rw [msb_fadd hne, Bool.decide_congr hsign, Bool.decide_eq_true]) ?_
  rw [body_fadd, hq]
  refine rndMag_eq_of_between (by omega) ?_ ?_
  all_goals
    split at hstep <;> omega

theorem body_of_huge {st : Word} (h : (2 : ℚ) ^ 28 ≤ |val st|) : 155 * 2 ^ 23 ≤ body st := by
  have hfoot : magOf (155 * 2 ^ 23) = 2 ^ 177 := by decide +kernel
  have hmag : |val st| = (magOf (body st) : ℚ) * (2 : ℚ) ^ (-149 : ℤ) := by
    rw [val_eq_signFactor, abs_mul, abs_mul, abs_signFactor, one_mul, Nat.abs_cast, abs_of_pos unit_pos]
  have he : (2 : ℚ) ^ 28 = ((2 ^ 177 : ℕ) : ℚ) * (2 : ℚ) ^ (-149 : ℤ) := by norm_num
  rwa [hmag, he, mul_le_mul_iff_left₀ unit_pos, Nat.cast_le, ← hfoot, magOf_strictMono.le_iff_le] at h

/-- Settles O36: the step absorbs the phase, and the phase 0 too. -/
theorem hugeStepFreezesPhase : Obligations.HugeStepFreezesPhase := by
  intro p st hp hst hhuge
  have hzero : legalPhase 0x00000000#32 = true := zero_legal
  have habsorb {q : Word} (hq : legalPhase q = true) := fadd_huge_step hq hst (body_of_huge hhuge)
  refine ⟨habsorb hp, ?_⟩
  rw [advance_eq hp hst, advance_eq hzero hst, habsorb hp, habsorb hzero]

end Sys2Proof.Machine
end

section
/-! The quadrant fold (R75). -/

namespace Sys2Proof.Machine

theorem flt_iff (a b : Word) : flt a b = true ↔ val a < val b := by rw [flt, decide_eq_true_iff, val_lt_iff]

theorem val_le_iff (a b : Word) : val a ≤ val b ↔ units a ≤ units b := by rw [← not_lt, ← not_lt, val_lt_iff]

theorem fge_iff (a b : Word) : fge a b = true ↔ val b ≤ val a := by rw [fge, decide_eq_true_iff, val_le_iff]

/-! ### The constants -/

theorem units_halfPi : units Config.HALF_PI_F = 0xC90FDB * 2 ^ 126 := by decide +kernel
theorem units_pi : units Config.PI_F = 0xC90FDB * 2 ^ 127 := by decide +kernel
theorem units_threeHalfPi : units Config.THREE_HALF_PI_F = 0x96CBE4 * 2 ^ 128 := by decide +kernel
theorem units_twoPi_eq : units Config.TWO_PI_F = 0xC90FDB * 2 ^ 128 := by decide +kernel

theorem halfPi_lt_threeHalfPi : val Config.HALF_PI_F < val Config.THREE_HALF_PI_F := by
  rw [val_lt_iff, units_halfPi, units_threeHalfPi]
  norm_num

/-! ### The three branches -/

theorem reduce_of_lt_halfPi {p : Word} (h : val p < val Config.HALF_PI_F) : reduce p = p := by
  have h1 : ¬ fge p Config.HALF_PI_F = true := by rw [fge_iff]; exact h.not_ge
  have h2 : ¬ fge p Config.THREE_HALF_PI_F = true := by
    rw [fge_iff]
    exact (h.trans halfPi_lt_threeHalfPi).not_ge
  rw [reduce, if_neg (fun hc => h1 (Bool.and_eq_true_iff.1 hc).1), if_neg h2]

theorem reduce_of_middle {p : Word} (h1 : val Config.HALF_PI_F ≤ val p) (h2 : val p < val Config.THREE_HALF_PI_F) :
    reduce p = fsub Config.PI_F p := by
  rw [reduce, if_pos (Bool.and_eq_true_iff.2 ⟨(fge_iff _ _).2 h1, (flt_iff _ _).2 h2⟩)]

theorem reduce_of_threeHalfPi_le {p : Word} (h : val Config.THREE_HALF_PI_F ≤ val p) :
    reduce p = fsub p Config.TWO_PI_F := by
  have h1 : ¬ flt p Config.THREE_HALF_PI_F = true := by rw [flt_iff]; exact h.not_gt
  rw [reduce, if_neg (fun hc => h1 (Bool.and_eq_true_iff.1 hc).2), if_pos ((fge_iff _ _).2 h)]

/-! ### Its exactness -/

/-- A legal phase from the foot of a binade up is a multiple of its step. -/
theorem two_pow_dvd_mag {p c : Word} {k : Nat} (hp : p.msb = false) (hc : c.msb = false) (h : val c ≤ val p)
    (hk : (k + 1) * 2 ^ 23 ≤ body c) : 2 ^ k ∣ mag p := by
  rw [← not_lt, val_lt_iff_toNat_lt hp hc, toNat_of_msb hp, toNat_of_msb hc] at h
  rw [mag_eq]
  exact two_pow_dvd_magOf (by omega)

/-- Operand and constant are multiples of one step, and their difference is at most 2^24 of it (R75). -/
theorem reduce_exact {p : Word} (hp : legalPhase p = true) :
    (val p < val Config.HALF_PI_F → reduce p = p) ∧
      (val Config.HALF_PI_F ≤ val p → val p < val Config.THREE_HALF_PI_F → val (reduce p) = val Config.PI_F - val p) ∧
      (val Config.THREE_HALF_PI_F ≤ val p → val (reduce p) = val p - val Config.TWO_PI_F) := by
  have hmsb := legalPhase_msb hp
  obtain ⟨-, hlt⟩ := legalPhase_units hp
  refine ⟨reduce_of_lt_halfPi, fun h1 h2 => ?_, fun h => ?_⟩
  · rw [reduce_of_middle h1 h2]
    refine val_fsub_of_dvd (s := 126) (by decide +kernel) (two_pow_dvd_mag hmsb (by decide) h1 (by decide)) (by omega) ?_
    have hge : units Config.HALF_PI_F ≤ units p := (val_le_iff _ _).1 h1
    have hlt : units p < units Config.THREE_HALF_PI_F := (val_lt_iff _ _).1 h2
    rw [units_halfPi] at hge
    rw [units_threeHalfPi] at hlt
    rw [units_pi]
    omega
  · rw [reduce_of_threeHalfPi_le h]
    refine val_fsub_of_dvd (s := 128) (two_pow_dvd_mag hmsb (by decide) h (by decide)) (by decide +kernel) (by omega) ?_
    have hge : units Config.THREE_HALF_PI_F ≤ units p := (val_le_iff _ _).1 h
    rw [units_threeHalfPi] at hge
    rw [units_twoPi_eq]
    omega

/-- Settles O37: neither subtraction of the fold rounds. -/
theorem reduceIsExact : Obligations.ReduceIsExact := fun _ => reduce_exact

end Sys2Proof.Machine
end

section
/-! The sine unit (R74, R76): the chain of rounded operations, its zero and its oddness. -/

namespace Sys2Proof.Machine

/-! ### The chain of R76 -/

theorem val_one : val Config.ONE_F = 1 := by
  rw [val_eq_units, show units Config.ONE_F = 2 ^ 149 by decide +kernel]
  norm_num

theorem val_six : val Config.SIX_F = 6 := by
  rw [val_eq_units, show units Config.SIX_F = 6 * 2 ^ 149 by decide +kernel]
  norm_num

theorem val_twenty : val Config.TWENTY_F = 20 := by
  rw [val_eq_units, show units Config.TWENTY_F = 20 * 2 ^ 149 by decide +kernel]
  norm_num

theorem val_fortyTwo : val Config.FORTYTWO_F = 42 := by
  rw [val_eq_units, show units Config.FORTYTWO_F = 42 * 2 ^ 149 by decide +kernel]
  norm_num

theorem fdiv_const_roundsTo (a : Word) {c : Word} {k : ℚ} (hc : val c = k) (hk : k ≠ 0) :
    RoundsTo (val a / k) (fdiv a c) := by
  subst hc
  exact fdiv_roundsTo a hk

theorem one_sub_roundsTo (a : Word) : RoundsTo (1 - val a) (fsub Config.ONE_F a) := by
  rw [← val_one, sub_eq_add_neg, ← val_invert]
  exact fadd_roundsTo _ _

/-- `y` is the polynomial of R76 at `x`, each of its ten operations rounded. -/
def RoundedPoly (x : ℚ) (y : Word) : Prop :=
  ∃ x2 a b c d e f g h : Word,
    RoundsTo (x * x) x2 ∧
      RoundsTo (val x2 / 42) a ∧
      RoundsTo (1 - val a) b ∧
      RoundsTo (val x2 * val b) c ∧
      RoundsTo (val c / 20) d ∧
      RoundsTo (1 - val d) e ∧
      RoundsTo (val x2 * val e) f ∧
      RoundsTo (val f / 6) g ∧
      RoundsTo (1 - val g) h ∧
      RoundsTo (x * val h) y

theorem poly_rounded (x : Word) : RoundedPoly (val x) (poly x) :=
  ⟨_, _, _, _, _, _, _, _, _,
    fmul_roundsTo _ _, fdiv_const_roundsTo _ val_fortyTwo (by norm_num), one_sub_roundsTo _,
    fmul_roundsTo _ _, fdiv_const_roundsTo _ val_twenty (by norm_num), one_sub_roundsTo _,
    fmul_roundsTo _ _, fdiv_const_roundsTo _ val_six (by norm_num), one_sub_roundsTo _,
    fmul_roundsTo _ _⟩

/-! ### The zero -/

theorem eq_zero_of_val {u : Word} (hs : u.msb = false) (h : val u = 0) : u = 0x00000000#32 := by
  rw [val_eq_zero_iff, mag_eq, ← magOf_zero, magOf_strictMono.injective.eq_iff] at h
  exact eq_of_body hs h

/-- A difference of equal values is `+0`, if the first operand is not `-0` (R14). -/
theorem fsub_eq_zero {a b : Word} (hs : a.msb = false) (h : val a - val b = 0) : fsub a b = 0x00000000#32 := by
  have hne : a ≠ 0x80000000#32 := by
    rintro rfl
    exact absurd hs (by decide)
  rw [fsub, fadd_of_sum_zero (by rw [val_invert, ← sub_eq_add_neg, h]), if_neg (fun hc => hne hc.1)]

/-- The fold gives no `-0` (R75). -/
theorem reduce_eq_zero {p : Word} (hp : legalPhase p = true) (h : val (reduce p) = 0) : reduce p = 0x00000000#32 := by
  obtain ⟨hlow, hmid, hhigh⟩ := reduce_exact hp
  rcases lt_or_ge (val p) (val Config.HALF_PI_F) with h1 | h1
  · rw [hlow h1] at h ⊢
    exact eq_zero_of_val (legalPhase_msb hp) h
  · rcases lt_or_ge (val p) (val Config.THREE_HALF_PI_F) with h2 | h2
    · rw [reduce_of_middle h1 h2]
      exact fsub_eq_zero (by decide) (hmid h1 h2 ▸ h)
    · rw [reduce_of_threeHalfPi_le h2]
      exact fsub_eq_zero (legalPhase_msb hp) (hhigh h2 ▸ h)

/-! ### Oddness -/

/-- The outermost bracket of R76, which sees the square of `x` only. -/
def polyFactor (x2 : Word) : Word :=
  let b := fsub Config.ONE_F (fdiv x2 Config.FORTYTWO_F)
  let e := fsub Config.ONE_F (fdiv (fmul x2 b) Config.TWENTY_F)
  fsub Config.ONE_F (fdiv (fmul x2 e) Config.SIX_F)

theorem poly_eq (x : Word) : poly x = fmul x (polyFactor (fmul x x)) := rfl

theorem mag_invert (u : Word) : mag (u ^^^ 0x80000000#32) = mag u := by rw [mag_eq, mag_eq, body_invert]

theorem rnd32_not (neg : Bool) (n d : Nat) : rnd32 (!neg) n d = rnd32 neg n d ^^^ 0x80000000#32 := by
  apply eq_of_body
  · rw [msb_invert, rnd32_msb, rnd32_msb]
  · rw [body_invert, rnd32_body, rnd32_body]

theorem fmul_invert_left (a b : Word) : fmul (a ^^^ 0x80000000#32) b = fmul a b ^^^ 0x80000000#32 := by
  rw [fmul, fmul, msb_invert, mag_invert, Bool.not_xor, rnd32_not]

theorem fmul_invert_self (a : Word) : fmul (a ^^^ 0x80000000#32) (a ^^^ 0x80000000#32) = fmul a a := by
  rw [fmul, fmul, msb_invert, mag_invert, Bool.xor_self, Bool.xor_self]

/-- Settles O38: each operation rounds, the fold gives no `-0`, and the sign of x reaches the last product only. -/
theorem sineIsRoundedPolynomial : Obligations.SineIsRoundedPolynomial := by
  refine ⟨fun p hp => ⟨sin7_eq hp, fun hz => ?_, ?_⟩, fun x => ?_⟩
  · rw [sin7_eq hp, reduce_eq_zero hp hz]
    decide +kernel
  · rw [sin7_eq hp]
    exact poly_rounded (reduce p)
  · rw [poly_eq, poly_eq, fmul_invert_self, fmul_invert_left]

end Sys2Proof.Machine
end

section
/-! The range of the samples (R79): no operation of R76 has a result of magnitude above 4, where rounding errs by at most 2^-23,
and these errors are far smaller than the distance of the exact polynomial from 1. -/

namespace Sys2Proof.Machine

/-! ### The error of one rounding -/

theorem exists_units_eq {z : ℤ} (h : Representable z.natAbs) : ∃ v : Word, isFinite v = true ∧ units v = z :=
  ⟨_, rnd32_finite_of_representable h _, units_rnd32_natAbs h⟩

/-- Up to 2^24 steps of a binade some finite value is within half a step. -/
theorem exists_val_near {r : ℚ} {s : Nat} (hs : s ≤ 252) (hr : |r| ≤ 2 ^ 24 * (2 ^ s * (2 : ℚ) ^ (-149 : ℤ))) :
    ∃ v : Word, isFinite v = true ∧ |val v - r| ≤ 2 ^ s * (2 : ℚ) ^ (-149 : ℤ) / 2 := by
  have hg : (0 : ℚ) < 2 ^ s * (2 : ℚ) ^ (-149 : ℤ) := by positivity
  generalize hgap : 2 ^ s * (2 : ℚ) ^ (-149 : ℤ) = g at *
  have hnear := abs_sub_round (r / g)
  have hsmall : |r / g| ≤ 2 ^ 24 := by rwa [abs_div, abs_of_pos hg, div_le_iff₀ hg]
  have hint : (round (r / g)).natAbs ≤ 2 ^ 24 := by
    have hlt : |(round (r / g) : ℚ)| < 2 ^ 24 + 1 := by
      rw [abs_lt]
      rw [abs_le] at hnear hsmall
      constructor <;> linarith
    rw [← Int.cast_abs, Int.abs_eq_natAbs] at hlt
    have hlt : ((round (r / g)).natAbs : ℤ) < 2 ^ 24 + 1 := by exact_mod_cast hlt
    omega
  obtain ⟨v, hv, hunits⟩ := exists_units_eq (z := round (r / g) * 2 ^ s)
    (by rw [Int.natAbs_mul]; exact representable_mul_two_pow hint hs)
  have hval : val v - r = -((r / g - round (r / g)) * g) := by
    have hmul : val v = round (r / g) * g := by
      rw [val_eq_units, hunits, ← hgap]
      push_cast
      ring
    rw [hmul, sub_mul, div_mul_cancel₀ _ hg.ne']
    ring
  refine ⟨v, hv, ?_⟩
  rw [hval, abs_neg, abs_mul, abs_of_pos hg]
  linarith [mul_le_mul_of_nonneg_right hnear hg.le]

/-- Up to 2^24 steps of a binade the rounding is finite and errs by at most half a step (R13). -/
theorem roundsTo_near {r : ℚ} {u : Word} (h : RoundsTo r u) {s : Nat} (hs : s ≤ 252)
    (hr : |r| ≤ 2 ^ 24 * (2 ^ s * (2 : ℚ) ^ (-149 : ℤ))) :
    isFinite u = true ∧ |val u - r| ≤ 2 ^ s * (2 : ℚ) ^ (-149 : ℤ) / 2 := by
  have hbelow : ¬ (2 : ℚ) ^ 128 - 2 ^ 103 ≤ |r| := by
    have hpow : (2 : ℚ) ^ s ≤ 2 ^ 252 := pow_le_pow_right₀ one_le_two hs
    have : |r| ≤ 2 ^ 24 * (2 ^ 252 * (2 : ℚ) ^ (-149 : ℤ)) :=
      hr.trans (mul_le_mul_of_nonneg_left (mul_le_mul_of_nonneg_right hpow unit_pos.le) (by positivity))
    norm_num at this ⊢
    linarith
  rw [RoundsTo, if_neg hbelow] at h
  obtain ⟨hfin, hnearest⟩ := h
  obtain ⟨v, hv, hnear⟩ := exists_val_near hs hr
  exact ⟨hfin, ((hnearest v hv).1).trans hnear⟩

/-- Half a step of the binade below 4: the error of one rounding in the chain of R76. -/
def eps : ℚ := 1 / 2 ^ 23

/-- The rounding of a magnitude up to 4 (R13). -/
theorem roundsTo_near_of_le_four {r : ℚ} {u : Word} (h : RoundsTo r u) (hr : |r| ≤ 4) :
    isFinite u = true ∧ |val u - r| ≤ eps := by
  have hstep : (2 : ℚ) ^ 127 * (2 : ℚ) ^ (-149 : ℤ) / 2 = eps := by norm_num [eps]
  rw [← hstep]
  exact roundsTo_near h (by norm_num) (by norm_num; exact hr)

/-! ### The error of the chain -/

/-- One bracket of R76 without rounding. -/
def bracket (C k : ℚ) : ℚ := 1 - C / k

/-- `b` is a rounded bracket whose exact value `B` lies in the upper half of [0, 1]. -/
structure BracketNear (b : Word) (B : ℚ) : Prop where
  error : |val b - B| ≤ 5 * eps
  low : 1 / 2 ≤ B
  high : B ≤ 1

/-- A bracket of R76 from a rounded numerator: two more roundings. -/
theorem bracket_near {c C k : ℚ} {d b : Word} (hc : |c - C| ≤ 15 * eps) (hC0 : 0 ≤ C) (hC : C ≤ 5 / 2) (hk : 6 ≤ k)
    (hd : RoundsTo (c / k) d) (hb : RoundsTo (1 - val d) b) : BracketNear b (bracket C k) := by
  have heps : eps = 1 / 2 ^ 23 := rfl
  have hk0 : 0 < k := by linarith
  have hdiff : |c / k - C / k| ≤ 5 / 2 * eps := by
    rw [← sub_div, abs_div, abs_of_pos hk0, div_le_iff₀ hk0]
    nlinarith
  have hCk0 : 0 ≤ C / k := by positivity
  have hCk : C / k ≤ 1 / 2 := by
    rw [div_le_iff₀ hk0]
    linarith
  rw [abs_le] at hdiff
  obtain ⟨-, hde⟩ := roundsTo_near_of_le_four hd (abs_le.2 ⟨by linarith, by linarith⟩)
  rw [abs_le] at hde
  obtain ⟨-, hbe⟩ := roundsTo_near_of_le_four hb (abs_le.2 ⟨by linarith, by linarith⟩)
  rw [abs_le] at hbe
  unfold bracket
  exact ⟨abs_le.2 ⟨by linarith, by linarith⟩, by linarith, by linarith⟩

/-- The numerator of the next bracket: the rounded square times a rounded bracket. -/
theorem product_near {x2 T U : ℚ} {u c : Word} (hx : |x2 - T| ≤ eps) (hT0 : 0 ≤ T) (hT : T ≤ 5 / 2)
    (hu : BracketNear u U) (hc : RoundsTo (x2 * val u) c) : |val c - T * U| ≤ 15 * eps ∧ 0 ≤ T * U ∧ T * U ≤ 5 / 2 := by
  have heps : eps = 1 / 2 ^ 23 := rfl
  obtain ⟨hue, hlow, hhigh⟩ := hu
  have hU0 : 0 ≤ U := by linarith
  have hsplit : x2 * val u - T * U = (x2 - T) * (val u - U) + (x2 - T) * U + T * (val u - U) := by ring
  have h1 : |(x2 - T) * (val u - U)| ≤ eps * (5 * eps) := by
    rw [abs_mul]
    exact mul_le_mul hx hue (abs_nonneg _) (by norm_num [heps])
  have h2 : |(x2 - T) * U| ≤ eps * 1 := by
    rw [abs_mul, abs_of_nonneg hU0]
    exact mul_le_mul hx hhigh hU0 (by norm_num [heps])
  have h3 : |T * (val u - U)| ≤ 5 / 2 * (5 * eps) := by
    rw [abs_mul, abs_of_nonneg hT0]
    exact mul_le_mul hT hue (abs_nonneg _) (by norm_num)
  have hdiff := abs_add_three ((x2 - T) * (val u - U)) ((x2 - T) * U) (T * (val u - U))
  rw [← hsplit] at hdiff
  have hsquare : eps * eps ≤ eps / 100 := by norm_num [heps]
  have hTU0 : 0 ≤ T * U := mul_nonneg hT0 hU0
  have hTU : T * U ≤ 5 / 2 := (mul_le_of_le_one_right hT0 hhigh).trans hT
  obtain ⟨hlo, hhi⟩ := abs_le.1 (show |x2 * val u - T * U| ≤ 14 * eps by linarith)
  obtain ⟨-, hce⟩ := roundsTo_near_of_le_four hc (abs_le.2 ⟨by linarith, by linarith⟩)
  rw [abs_le] at hce
  exact ⟨abs_le.2 ⟨by linarith, by linarith⟩, hTU0, hTU⟩

/-- The next bracket of R76: a product, a quotient and a difference, each rounded. -/
theorem next_bracket_near {x2 T U k : ℚ} {u c d b : Word} (hx : |x2 - T| ≤ eps) (hT0 : 0 ≤ T) (hT : T ≤ 5 / 2)
    (hu : BracketNear u U) (hk : 6 ≤ k) (hc : RoundsTo (x2 * val u) c) (hd : RoundsTo (val c / k) d)
    (hb : RoundsTo (1 - val d) b) : BracketNear b (bracket (T * U) k) := by
  obtain ⟨hce, hC0, hC⟩ := product_near hx hT0 hT hu hc
  exact bracket_near hce hC0 hC hk hd hb

/-- The outermost bracket of R76 without rounding, of the square `T` of x. -/
def taylorFactor (T : ℚ) : ℚ := bracket (T * bracket (T * bracket T 42) 20) 6

theorem sq_le_of_abs_le {x : ℚ} (hx : |x| ≤ 1.5708) : x * x ≤ 5 / 2 := by
  rw [← abs_mul_abs_self]
  nlinarith [abs_nonneg x]

/-- The rounded polynomial is as near to the exact one as ten roundings allow. -/
theorem roundedPoly_near {x : ℚ} {y : Word} (hx : |x| ≤ 1.5708) (h : RoundedPoly x y) :
    isFinite y = true ∧ |val y - x * taylorFactor (x * x)| ≤ 9 * eps := by
  have heps : eps = 1 / 2 ^ 23 := rfl
  obtain ⟨x2, a, b, c, d, e, f, g, h, hx2, ha, hb, hc, hd, he, hf, hg, hh, hy⟩ := h
  have hT0 : 0 ≤ x * x := mul_self_nonneg x
  have hT : x * x ≤ 5 / 2 := sq_le_of_abs_le hx
  obtain ⟨-, hx2e⟩ := roundsTo_near_of_le_four hx2 (abs_le.2 ⟨by linarith, by linarith⟩)
  have hB := bracket_near (k := 42) (by linarith) hT0 hT (by norm_num) ha hb
  have hE := next_bracket_near hx2e hT0 hT hB (by norm_num) hc hd he
  obtain ⟨hhe, hlow, hhigh⟩ := next_bracket_near hx2e hT0 hT hE (by norm_num) hf hg hh
  change |val h - taylorFactor (x * x)| ≤ _ at hhe
  change _ ≤ taylorFactor (x * x) at hlow
  change taylorFactor (x * x) ≤ _ at hhigh
  generalize taylorFactor (x * x) = H at *
  have hdiff : |x * val h - x * H| ≤ 1.5708 * (5 * eps) := by
    rw [← mul_sub, abs_mul]
    exact mul_le_mul hx hhe (abs_nonneg _) (by norm_num)
  have hxH : |x * H| ≤ 1.5708 * 1 := by
    rw [abs_mul, abs_of_nonneg (show 0 ≤ H by linarith)]
    exact mul_le_mul hx hhigh (by linarith) (by norm_num)
  rw [abs_le] at hdiff hxH
  obtain ⟨hfin, hye⟩ := roundsTo_near_of_le_four hy (abs_le.2 ⟨by linarith, by linarith⟩)
  rw [abs_le] at hye
  exact ⟨hfin, abs_le.2 ⟨by linarith, by linarith⟩⟩

/-! ### The exact polynomial -/

/-- The degree-7 polynomial stays below its maximum near 1.57: what remains of the bound is a square times a positive factor. -/
theorem taylor_le {t : ℚ} (h0 : 0 ≤ t) (h1 : t ≤ 1.5708) : t * taylorFactor (t * t) ≤ 0.99986 := by
  have hw : 0 ≤ 1.5708 - t := by linarith
  have h2 : 0 ≤ (t - 1.57) ^ 2 := sq_nonneg _
  have h3 : 0 ≤ (t - 1.57) ^ 2 * t * (1.5708 - t) := by positivity
  have h4 : 0 ≤ (t - 1.57) ^ 2 * t ^ 2 * (1.5708 - t) := by positivity
  have h5 : 0 ≤ (t - 1.57) ^ 2 * t := by positivity
  have h6 : 0 ≤ (t - 1.57) ^ 2 * t ^ 4 := by positivity
  have h7 : 0 ≤ (t - 1.57) ^ 2 * t ^ 5 := by positivity
  have hslope : 0 ≤ (t - 1.5698) ^ 2 := sq_nonneg _
  unfold taylorFactor bracket
  linarith

theorem bracket_range {C k : ℚ} (hC0 : 0 ≤ C) (hC : C ≤ 5 / 2) (hk : 6 ≤ k) : 0 ≤ bracket C k ∧ bracket C k ≤ 1 := by
  have hk0 : 0 < k := by linarith
  have h1 : C / k ≤ 1 := (div_le_one hk0).2 (by linarith)
  have h0 : 0 ≤ C / k := by positivity
  unfold bracket
  constructor <;> linarith

theorem taylorFactor_nonneg {T : ℚ} (hT0 : 0 ≤ T) (hT : T ≤ 5 / 2) : 0 ≤ taylorFactor T := by
  have hnext {U : ℚ} (hU : 0 ≤ U ∧ U ≤ 1) : 0 ≤ T * U ∧ T * U ≤ 5 / 2 :=
    ⟨mul_nonneg hT0 hU.1, (mul_le_of_le_one_right hT0 hU.2).trans hT⟩
  obtain ⟨hC0, hC⟩ := hnext (bracket_range (k := 42) hT0 hT (by norm_num))
  obtain ⟨hF0, hF⟩ := hnext (bracket_range (k := 20) hC0 hC (by norm_num))
  exact (bracket_range hF0 hF le_rfl).1

theorem taylor_abs_le {t : ℚ} (h : |t| ≤ 1.5708) : |t * taylorFactor (t * t)| ≤ 0.99986 := by
  rw [abs_mul, abs_of_nonneg (taylorFactor_nonneg (mul_self_nonneg t) (sq_le_of_abs_le h)), ← abs_mul_abs_self]
  exact taylor_le (abs_nonneg t) h

/-! ### The samples -/

theorem val_of_units {u : Word} {z : ℤ} (h : units u = z) : val u = (z : ℚ) * (2 : ℚ) ^ (-149 : ℤ) := by
  rw [val_eq_units, h]

theorem val_halfPi : val Config.HALF_PI_F = 0xC90FDB / 2 ^ 23 := by rw [val_of_units units_halfPi]; norm_num
theorem val_pi : val Config.PI_F = 0xC90FDB / 2 ^ 22 := by rw [val_of_units units_pi]; norm_num
theorem val_threeHalfPi : val Config.THREE_HALF_PI_F = 0x96CBE4 / 2 ^ 21 := by rw [val_of_units units_threeHalfPi]; norm_num
theorem val_twoPi : val Config.TWO_PI_F = 0xC90FDB / 2 ^ 21 := by rw [val_of_units units_twoPi_eq]; norm_num
theorem val_scale : val Config.SCALE_F = 16383 := by
  rw [val_of_units (show units Config.SCALE_F = 16383 * 2 ^ 149 by decide +kernel)]
  norm_num

theorem legalPhase_val {p : Word} (hp : legalPhase p = true) : 0 ≤ val p ∧ val p < val Config.TWO_PI_F :=
  ((legalPhasesAreTheInterval p).2.1 hp).2.2

/-- The folded phase lies in about [-π/2, π/2] (R75). -/
theorem abs_val_reduce_le {p : Word} (hp : legalPhase p = true) : |val (reduce p)| ≤ 1.5708 := by
  obtain ⟨hlow, hmid, hhigh⟩ := reduce_exact hp
  obtain ⟨h0, hlt⟩ := legalPhase_val hp
  rw [val_halfPi, val_threeHalfPi] at hmid
  rw [val_halfPi] at hlow
  rw [val_threeHalfPi] at hhigh
  rw [val_twoPi] at hlt hhigh
  rw [val_pi] at hmid
  rw [abs_le]
  rcases lt_or_ge (val p) (0xC90FDB / 2 ^ 23) with h1 | h1
  · rw [hlow h1]
    constructor <;> linarith
  · rcases lt_or_ge (val p) (0x96CBE4 / 2 ^ 21) with h2 | h2
    · rw [hmid h1 h2]
      constructor <;> linarith
    · rw [hhigh h2]
      constructor <;> linarith

/-- The range of the sine unit (R79). -/
theorem sin7_range {p : Word} (hp : legalPhase p = true) : isFinite (sin7 p) = true ∧ |val (sin7 p)| ≤ 0.99987 := by
  have hx := abs_val_reduce_le hp
  rw [sin7_eq hp]
  obtain ⟨hfin, herr⟩ := roundedPoly_near hx (poly_rounded (reduce p))
  have hexact := taylor_abs_le hx
  have heps : eps = 1 / 2 ^ 23 := rfl
  rw [abs_le] at herr hexact
  exact ⟨hfin, abs_le.2 ⟨by linarith, by linarith⟩⟩

/-- The scaled sample, where one rounding errs by at most 2^-11 (R92). -/
theorem scaled_range {p : Word} (hp : legalPhase p = true) :
    isFinite (fmul (sin7 p) Config.SCALE_F) = true ∧ |val (fmul (sin7 p) Config.SCALE_F)| < 16381 := by
  obtain ⟨hlow, hhigh⟩ := abs_le.1 (sin7_range hp).2
  have hround := fmul_roundsTo (sin7 p) Config.SCALE_F
  rw [val_scale] at hround
  have hstep : (2 : ℚ) ^ 139 * (2 : ℚ) ^ (-149 : ℤ) = 1 / 2 ^ 10 := by norm_num
  have hbinade : |val (sin7 p) * 16383| ≤ 2 ^ 24 * (2 ^ 139 * (2 : ℚ) ^ (-149 : ℤ)) := by
    rw [hstep, abs_le]
    constructor <;> linarith
  obtain ⟨hfin, herr⟩ := roundsTo_near hround (by norm_num) hbinade
  rw [hstep, abs_le] at herr
  exact ⟨hfin, abs_lt.2 ⟨by linarith, by linarith⟩⟩

/-- Settles O39: the sample is at most 0.99987 in magnitude, and so its scaled value stays below 16381. -/
theorem sineFitsSample : Obligations.SineFitsSample := fun p hp =>
  ⟨(sin7_range hp).1, (sin7_range hp).2.trans_lt (by norm_num), scaled_range hp⟩

end Sys2Proof.Machine
end

section
/-! The packer (R91, R92): its integer is the scaled value truncated toward zero, and a larger magnitude scales to one no smaller. -/

namespace Sys2Proof.Machine

/-! ### Truncation -/

/-- The scaled value with its fraction discarded, before it is saturated (R92). -/
def truncated (v : Word) : ℤ := (units v).tdiv (2 ^ 149)

theorem trunc16_eq (v : Word) : trunc16 v = max (-32768) (min 32767 (truncated v)) := by
  simp only [trunc16, truncated]
  split
  · omega
  · split <;> omega

theorem val_eq_div (u : Word) : val u = (units u : ℚ) / ((2 ^ 149 : ℕ) : ℚ) := by
  rw [val_eq_units, zpow_neg, div_eq_mul_inv]
  norm_cast

/-- Towards zero is down from a positive value and up from a negative one (R92). -/
theorem truncated_eq (v : Word) : truncated v = if 0 ≤ val v then ⌊val v⌋ else ⌈val v⌉ := by
  have hsign : 0 ≤ val v ↔ 0 ≤ units v := by
    rw [val_eq_units, mul_nonneg_iff_of_pos_right unit_pos, Int.cast_nonneg_iff]
  simp only [hsign]
  split
  · rw [val_eq_div, Rat.floor_intCast_div_natCast, truncated, Int.tdiv_eq_ediv_of_nonneg ‹_›]
    rfl
  · rw [val_eq_div, Rat.ceil_intCast_div_natCast, truncated, ← neg_neg (units v), Int.neg_tdiv,
      Int.tdiv_eq_ediv_of_nonneg (by omega), neg_neg]
    rfl

/-- Settles O40: the quotient of the units truncated toward zero is the floor or the ceiling of the value. -/
theorem packTruncatesTowardZero : Obligations.PackTruncatesTowardZero := by
  intro y hy hv v i
  have hi : truncated (fmul y Config.SCALE_F) = i := truncated_eq _
  rw [pack_eq hy hv, trunc16_eq, hi]
  rfl

/-! ### Magnitudes -/

theorem abs_val (u : Word) : |val u| = (magOf (body u) : ℚ) * (2 : ℚ) ^ (-149 : ℤ) := by
  rw [val_eq_signFactor, abs_mul, abs_mul, abs_signFactor, one_mul, Nat.abs_cast, abs_of_pos unit_pos]

/-- Magnitudes are ordered as the patterns less their signs are (R12). -/
theorem abs_val_le_iff (u v : Word) : |val u| ≤ |val v| ↔ body u ≤ body v := by
  rw [abs_val, abs_val, mul_le_mul_iff_left₀ unit_pos, Nat.cast_le, magOf_strictMono.le_iff_le]

theorem isFinite_of_body_le {u v : Word} (hv : isFinite v = true) (h : body u ≤ body v) : isFinite u = true :=
  (isFinite_iff u).2 (h.trans_lt ((isFinite_iff v).1 hv))

/-- A product grows with the magnitude of its first factor (R14). -/
theorem body_fmul_mono {a b : Word} (h : body a ≤ body b) (c : Word) : body (fmul a c) ≤ body (fmul b c) := by
  rw [fmul, fmul, rnd32_body, rnd32_body, mag_eq a, mag_eq b]
  exact rndMag_mono (by positivity) (by positivity)
    (Nat.mul_le_mul_right _ (Nat.mul_le_mul_right _ (magOf_strictMono.monotone h)))

/-! ### The packed sample -/

/-- The truncated value is no larger in magnitude than the value. -/
theorem natAbs_truncated_lt {v : Word} {n : ℕ} (h : |val v| < n) : (truncated v).natAbs < n := by
  rw [abs_val, ← mag_eq, zpow_neg, ← div_eq_mul_inv, div_lt_iff₀ (by positivity)] at h
  rw [truncated, Int.natAbs_tdiv, units_natAbs]
  exact Nat.div_lt_of_lt_mul (by rw [Nat.mul_comm]; exact_mod_cast h)

/-- A scaled value that fits 15 bits packs, unsaturated, around the bias (R91). -/
theorem pack_toNat {y : Word} {n : ℕ} (hy : isFinite y = true) (hv : isFinite (fmul y Config.SCALE_F) = true)
    (hn : n ≤ 32768) (h : |val (fmul y Config.SCALE_F)| < n) :
    32768 < (pack y).toNat + n ∧ (pack y).toNat < 32768 + n := by
  have hlt := natAbs_truncated_lt h
  rw [pack_eq hy hv, trunc16_eq, BitVec.toNat_ofInt, show Config.BIAS = 32768 from rfl]
  omega

theorem fmul_one_scale : fmul Config.ONE_F Config.SCALE_F = Config.SCALE_F := by decide +kernel

/-- The largest magnitude below 1 scales below 16383 (R100). -/
theorem fmul_belowOne_scale : fmul 0x3F7FFFFF#32 Config.SCALE_F = 0x467FFBFF#32 := by decide +kernel

theorem abs_val_scale : |val Config.SCALE_F| = 16383 := by rw [val_scale]; norm_num

theorem abs_val_one : |val Config.ONE_F| = 1 := by rw [val_one, abs_one]

/-- A value in [-1, 1] scales into [-16383, 16383] (R100). -/
theorem scaled_of_abs_le_one {y : Word} (h : |val y| ≤ 1) :
    isFinite (fmul y Config.SCALE_F) = true ∧ |val (fmul y Config.SCALE_F)| ≤ 16383 := by
  rw [← abs_val_one, abs_val_le_iff] at h
  have hle := body_fmul_mono h Config.SCALE_F
  rw [fmul_one_scale] at hle
  refine ⟨isFinite_of_body_le (by decide) hle, ?_⟩
  rw [← abs_val_scale]
  exact (abs_val_le_iff _ _).2 hle

/-- Strictly inside, strictly inside: the rounding does not reach the end (R100). -/
theorem scaled_of_abs_lt_one {y : Word} (h : |val y| < 1) : |val (fmul y Config.SCALE_F)| < 16383 := by
  rw [← abs_val_one, ← not_le, abs_val_le_iff, show body Config.ONE_F = body 0x3F7FFFFF#32 + 1 by decide, not_le,
    Nat.lt_succ_iff] at h
  have hle := body_fmul_mono h Config.SCALE_F
  rw [fmul_belowOne_scale] at hle
  rw [← abs_val_scale, ← not_le, abs_val_le_iff, not_le]
  exact hle.trans_lt (by decide)

theorem eq_one_or_eq_neg_one {y : Word} (h : |val y| = 1) : y = 0x3F800000#32 ∨ y = 0xBF800000#32 := by
  have hb : body y = body Config.ONE_F := by
    rw [← abs_val_one] at h
    exact le_antisymm ((abs_val_le_iff _ _).1 h.le) ((abs_val_le_iff _ _).1 h.ge)
  cases hs : y.msb with
  | false => exact .inl (eq_of_body hs hb)
  | true => exact .inr (eq_of_body hs (hb.trans rfl))

theorem pack_one : pack 0x3F800000#32 = 0xBFFF#16 := by decide +kernel
theorem pack_negOne : pack 0xBF800000#32 = 0x4001#16 := by decide +kernel

theorem val_negOne : val 0xBF800000#32 = -1 := by
  rw [← val_one, ← val_invert]
  rfl

/-- The ends of [0x4001, 0xBFFF] are packed from -1 and 1 alone (R100). -/
theorem pack_inside {y : Word} (hy : isFinite y = true) (h : |val y| < 1) :
    0x4001 < (pack y).toNat ∧ (pack y).toNat < 0xBFFF := by
  obtain ⟨hfin, -⟩ := scaled_of_abs_le_one h.le
  have := pack_toNat (n := 16383) hy hfin (by omega) (scaled_of_abs_lt_one h)
  omega

/-- Settles O41: the scaled sample of a legal phase is below 16381 and that of a value in [-1, 1] at most 16383, which only the
ends reach. -/
theorem samplesStayInRange : Obligations.SamplesStayInRange := by
  refine ⟨fun p hp => ?_, fun y hy h => ?_⟩
  · obtain ⟨hfin, hone⟩ := sin7_range hp
    obtain ⟨hscaled, hlt⟩ := scaled_range hp
    have := pack_toNat (n := 16381) hfin hscaled (by omega) hlt
    exact ⟨by omega, by omega, fun h1 => by norm_num [h1] at hone⟩
  · rcases lt_or_eq_of_le h with hlt | heq
    · obtain ⟨hlow, hhigh⟩ := pack_inside hy hlt
      refine ⟨hlow.le, hhigh.le, fun he => ?_, fun he => ?_⟩
      · rw [he] at hlow
        exact absurd hlow (by decide)
      · rw [he] at hhigh
        exact absurd hhigh (by decide)
    · rcases eq_one_or_eq_neg_one heq with rfl | rfl
      · rw [pack_one]
        exact ⟨by decide, by decide, fun he => absurd he (by decide), fun _ => val_one⟩
      · rw [pack_negOne]
        exact ⟨by decide, by decide, fun _ => val_negOne, fun he => absurd he (by decide)⟩

end Sys2Proof.Machine
end

section
/-! The frame commands at the command level: `PROD` is 441 `STEP`s (R93), and what `EMIT` keeps (R94, R103). -/

namespace Sys2Proof.Machine

/-! ### EMIT without a burst -/

/-- Settles O20: the frame is checked before the device. -/
theorem emitRefusals : Obligations.EmitRefusals := fun _ => ⟨exec_emit_noFrame, exec_emit_notReady⟩

/-! ### PROD -/

/-- A write below an address does not reach it. -/
theorem readByte_writeRun_zero_of_le (m : Memory) {bs : List Byte} {x : Nat} (h : bs.length ≤ x) :
    (m.writeRun 0 bs).readByte x = m.readByte x := by
  rw [readByte_writeRun, if_neg (by omega)]

/-- Settles O18: 441 pairs are a complete frame of 1764 bytes. -/
theorem prodCompletes : Obligations.ProdCompletes := by
  refine ⟨decode_mk_prod, fun s => ⟨_, _, exec_prod s, completeFrame_pairs s.fb (synth_length _ _ _), fun x hx => ?_⟩⟩
  refine readByte_writeRun_zero_of_le s.fb ?_
  rwa [pairBytes_length, synth_length]

/-- The phase of one sample more. -/
theorem synth_succ_phase (n : Nat) (p st : Word) : (synth (n + 1) p st).2 = advance (synth n p st).2 st := by
  rw [synth_add]
  rfl

theorem synth_succ (n : Nat) (p st : Word) :
    synth (n + 1) p st =
      (pack (sin7 (advance p st)) :: (synth n (advance p st) st).1, (synth n (advance p st) st).2) := rfl

/-- Sample k of a synthesis is the packed sine of the phase after k + 1 advances (R93). -/
theorem synth_getElem? {k n : Nat} (h : k < n) (p st : Word) :
    (synth n p st).1[k]? = some (pack (sin7 (synth (k + 1) p st).2)) := by
  induction n generalizing k p with
  | zero => omega
  | succ n ih =>
    cases k with
    | zero => simp only [synth, List.getElem?_cons_zero]
    | succ k =>
      rw [synth_succ, List.getElem?_cons_succ, synth_succ]
      exact ih (by omega) (advance p st)

theorem stepTimes_succ {n : Nat} {s t : State} (h : stepTimes n s = some t) :
    stepTimes (n + 1) s =
      some (respond codeOK (sin7 (advance t.phase t.astep)) { t with phase := advance t.phase t.astep }) := by
  simp only [stepTimes, h, exec_step]

/-- `STEP`s advance the phase as the samples of a `PROD` do (R72, R93). -/
theorem stepTimes_phase (n : Nat) (s : State) :
    ∃ t, stepTimes n s = some t ∧ t.phase = (synth n s.phase s.astep).2 ∧ t.astep = s.astep := by
  induction n with
  | zero => exact ⟨s, rfl, rfl, rfl⟩
  | succ n ih =>
    obtain ⟨t, ht, hphase, hastep⟩ := ih
    refine ⟨_, stepTimes_succ ht, ?_, hastep⟩
    rw [synth_succ_phase, ← hphase, ← hastep]
    rfl

/-- The last of some `STEP`s answers the sine of the phase it leaves (R72). -/
theorem stepTimes_answer {n : Nat} {s x : State} (h : stepTimes (n + 1) s = some x) :
    x.rsp = some ⟨0x0#4, sin7 x.phase⟩ := by
  obtain ⟨t, ht, -, -⟩ := stepTimes_phase n s
  rw [stepTimes_succ ht, Option.some.injEq] at h
  subst h
  rfl

/-- The phase and the buffer that `PROD` leaves. `hfields` speaks of any: to compare the synthesised ones the kernel would run
the synthesis. -/
theorem exec_prod_fields (s : State) :
    ∃ t, exec .prod s = .next t ∧ t.phase = (synth 441 s.phase s.astep).2 ∧
      t.fb = s.fb.writeRun 0 (pairBytes (synth 441 s.phase s.astep).1) := by
  have hfields (p : Word) (m : Memory) : (respond codeOK 0#32 { s with phase := p, fb := m, fv := true }).phase = p ∧
      (respond codeOK 0#32 { s with phase := p, fb := m, fv := true }).fb = m := ⟨rfl, rfl⟩
  exact ⟨_, exec_prod s, hfields _ _⟩

/-- Settles O19: `STEP`s and `PROD` advance alike, and sample k of the synthesis is what the (k+1)-th `STEP` answers, packed. -/
theorem prodIs441Steps : Obligations.ProdIs441Steps := by
  intro s
  obtain ⟨t, ht, hphase, hfb⟩ := exec_prod_fields s
  obtain ⟨u, hu, huphase, -⟩ := stepTimes_phase 441 s
  refine ⟨t, u, ht, hu, hphase.trans huphase.symm, fun k hk => ?_⟩
  obtain ⟨x, hx, hxphase, -⟩ := stepTimes_phase (k + 1) s
  refine ⟨x, sin7 x.phase, hx, stepTimes_answer hx, ?_⟩
  rw [hxphase, hfb]
  exact readWord_pairs s.fb _ (synth_getElem? hk _ _)

/-! ### A burst that has ended -/

/-- A burst that has ended, however it did, leaves no frame (R27, R97). -/
theorem burstOutcome_fb {draw : BurstDraw} (h : ∀ k ticks o, draw ≠ .unfinished k ticks o) (ws : List Sample) (s : State) :
    (burstOutcome ws draw s).fb = [] := by
  cases draw with
  | complete | timeout | sinkErr => rfl
  | unfinished k ticks o => exact absurd rfl (h k ticks o)

/-- `PROD` reads PHASE, ASTEP and FB alone. -/
theorem exec_prod_congr {t t' : State} (hp : t.phase = t'.phase) (ha : t.astep = t'.astep) (hf : t.fb = t'.fb) :
    ∃ u u', exec .prod t = .next u ∧ exec .prod t' = .next u' ∧
      u.phase = u'.phase ∧ u.fb = u'.fb ∧ u.fv = u'.fv ∧ u.rsp = u'.rsp := by
  refine ⟨_, _, exec_prod t, exec_prod t', ?_⟩
  simp only [respond_phase, respond_fb, respond_fv, respond_rsp, hp, ha, hf, and_self]

/-- Settles O24: no outcome moves the oscillator, and each ended one leaves FB empty, which is all that `PROD` reads. -/
theorem transientFailureIsolation : Obligations.TransientFailureIsolation := by
  intro s d d' hf hw hc hd hended hended'
  obtain ⟨ws, hws, -⟩ := frame_of_complete hw hc
  have hburst (d : BurstDraw) := exec_emit_burst (s := { s with pins := { s.pins with draw := d } }) hf hd hws
  obtain ⟨hphase, hastep, hamp, -⟩ := burstOutcome_frame ws d { s with pins := { s.pins with draw := d } }
  obtain ⟨hphase', hastep', -⟩ := burstOutcome_frame ws d' { s with pins := { s.pins with draw := d' } }
  obtain ⟨u, u', hu, hu', hsame⟩ := exec_prod_congr (hphase.trans hphase'.symm) (hastep.trans hastep'.symm)
    ((burstOutcome_fb hended ws _).trans (burstOutcome_fb hended' ws _).symm)
  exact ⟨_, _, u, u', hburst d, hburst d', hphase, hastep, hamp, hu, hu', hsame⟩

end Sys2Proof.Machine
end

section
/-! The ties of R96, and a run of the signal level for each outcome of R95. -/

namespace Sys2Proof.Machine

/-! ### The ties -/

/-- A cycle in which word 881 is not taken does not complete the burst (R96). -/
theorem lastWord_eq_false {c : CycleIn} {s : State} (h : ¬(s.snkValid = true ∧ c.snkReady = true ∧ s.w.val = 881)) :
    (s.snkValid && c.snkReady && atLastWord s) = false := by
  rw [Bool.eq_false_iff, ne_eq, Bool.and_eq_true, Bool.and_eq_true, atLastWord_iff, and_assoc]
  exact h

theorem pulse_eq_true {ce : Bool} {n : BitVec 13} (hce : ce = true) (hn : n = 4409#13) :
    (ce && n.toNat == Config.TIMEOUT_TICKS - 1) = true := by
  subst hce hn
  rfl

/-- Settles O56: the cases of R96 in their order. -/
theorem burstTies : Obligations.BurstTies := by
  intro s c hc hs hb
  refine ⟨fun he => ?_, fun v he hv hr hl hw => ?_, fun he hl hce ht => ?_⟩
  · exact ⟨_, cycle_sinkErr hc hs hb he, rfl, rfl, rfl, rfl, rfl, rfl, rfl, rfl⟩
  · have hlog : s.sinkLog ++ [burstWord s.w.val v] = s.sinkLog ++ [.word v true true] := by rw [hl]; rfl
    exact ⟨_, cycle_taken_last hc hs hb hv hr he (hl ▸ hw) hl, rfl, hlog, rfl, rfl, rfl, rfl, rfl, rfl⟩
  · exact ⟨_, cycle_timeout hc hs hb he (lastWord_eq_false hl) (pulse_eq_true hce ht),
      rfl, rfl, rfl, rfl, rfl, rfl, rfl, rfl⟩

/-! ### Runs without reset -/

/-- Some cycles without a reset, run until a response is offered, lead from one state to another. -/
def Reaches (s t : State) : Prop := ∃ cs : List CycleIn, (∀ x ∈ cs, x.rst = false) ∧ runToResponse cs s = .next t

theorem Reaches.refl (s : State) : Reaches s s := ⟨[], by simp, rfl⟩

theorem Reaches.trans {s t u : State} (h : Reaches s t) (h' : Reaches t u) : Reaches s u := by
  obtain ⟨cs, hcs, hrun⟩ := h
  obtain ⟨cs', hcs', hrun'⟩ := h'
  exact ⟨cs ++ cs', List.forall_mem_append.2 ⟨hcs, hcs'⟩, (runToResponse_append hrun).trans hrun'⟩

theorem Reaches.cycle {c : CycleIn} {s t : State} (hs : s.seq = .exec) (hc : c.rst = false) (h : cycle c s = .next t) :
    Reaches s t :=
  ⟨[c], by simpa using hc, runToResponse_cons (by simp [hs]) h []⟩

/-! ### The cycles of a burst -/

/-- A cycle in which the block does its next piece of work, and the platform and the sink do as given. -/
def workCycle (fsCe snkReady snkErr : Bool) : CycleIn where
  rst := false
  cmdValid := false
  cmdOp := 0#4
  cmdA := 0#32
  cmdB := 0#32
  rspReady := false
  devReady := false
  fsCe := fsCe
  snkReady := snkReady
  snkErr := snkErr
  go := true

/-- The burst of the frame `ws` that began in `b`, with word `w` on offer after `n` pulses. -/
def burstAt (b : State) (ws : List Sample) (w : Fin Config.FRAME_WORDS) (n : BitVec 13) : State :=
  { b with
    burst := true, w := w, tmr := n, snkValid := true, snkAbort := false
    sinkLog := b.sinkLog ++ burstWords 0 (ws.take w.val) }

theorem burstWords_take_succ {ws : List Sample} {i : Nat} {v : Sample} (h : ws[i]? = some v) :
    burstWords 0 (ws.take (i + 1)) = burstWords 0 (ws.take i) ++ [burstWord i v] := by
  have hi := (List.getElem?_eq_some_iff.1 h).1
  rw [List.take_add_one, h, Option.toList_some, burstWords_append, List.length_take, Nat.min_eq_left hi.le, Nat.zero_add]
  rfl

/-- The block at the start of its burst. -/
def burstStart (b : State) (offering : Bool) : State :=
  { b with burst := true, tmr := 0#13, w := 0, snkValid := offering }

/-- The first cycle of a burst can offer word 0 (R152). -/
theorem cycle_firstOffer {b : State} (hs : b.seq = .exec) (ws : List Sample) (offering : Bool) :
    cycle (workCycle false false false) (burstStart b offering) = .next (burstAt b ws 0 0#13) := by
  rw [cycle_goesOn (s := burstStart b offering) rfl hs rfl rfl (by simp [workCycle]) rfl]
  simp [burstGoesOn, workCycle, burstStart, burstAt, burstWords]

/-- The word on offer is the one of the frame (R94). -/
theorem exists_word {b : State} {ws : List Sample} (hread : ∀ i < 882, b.fb.readWord i = ws[i]?) (hlen : ws.length = 882)
    (i : Fin Config.FRAME_WORDS) : ∃ v, ws[i.val]? = some v ∧ b.fb.readWord i.val = some v := by
  have hi : i.val < 882 := i.isLt
  have hv : ws[i.val]? = some ws[i.val] := List.getElem?_eq_getElem _
  exact ⟨_, hv, (hread _ hi).trans hv⟩

section Burst

variable {b : State} {ws : List Sample} (hs : b.seq = .exec) (hread : ∀ i < 882, b.fb.readWord i = ws[i]?)
  (hlen : ws.length = 882)
include hs

theorem cycle_tick {n : BitVec 13} (w : Fin Config.FRAME_WORDS) (hn : n ≠ 4409#13) :
    cycle (workCycle true false false) (burstAt b ws w n) = .next (burstAt b ws w (n + 1#13)) :=
  cycle_held rfl hs rfl rfl rfl rfl (fun h => hn h.2)

theorem reaches_tick (w : Fin Config.FRAME_WORDS) {n : Nat} (hn : n ≤ 4409) :
    Reaches (burstAt b ws w 0#13) (burstAt b ws w (BitVec.ofNat 13 n)) := by
  induction n with
  | zero => exact .refl _
  | succ n ih =>
    have hne : BitVec.ofNat 13 n ≠ 4409#13 := by
      rw [ne_eq, ← BitVec.toNat_inj, BitVec.toNat_ofNat, BitVec.toNat_ofNat]
      omega
    rw [BitVec.ofNat_add]
    exact (ih (by omega)).trans (.cycle hs rfl (cycle_tick hs w hne))

include hread hlen

/-- A word short of the last is taken and the next one is up (R46, R47). -/
theorem cycle_take {w : Fin Config.FRAME_WORDS} (hw : w.val ≠ 881) :
    cycle (workCycle false true false) (burstAt b ws w 0#13) = .next (burstAt b ws (w + 1) 0#13) := by
  obtain ⟨v, hv, hrd⟩ := exists_word hread hlen w
  have hlt : w.val < 882 := w.isLt
  have hnext : (w + 1).val = w.val + 1 := Fin.val_add_one_of_lt (show w.val < 881 by omega)
  rw [cycle_taken (s := burstAt b ws w 0#13) rfl hs rfl rfl rfl rfl hrd hw (by simp [workCycle])]
  simp only [burstAt, hnext, burstWords_take_succ hv]
  simp [sinkPut, workCycle]

theorem reaches_word {k : Nat} (hk : k < 882) : Reaches (burstAt b ws 0 0#13) (burstAt b ws ⟨k, hk⟩ 0#13) := by
  induction k with
  | zero => exact .refl _
  | succ k ih =>
    have hnext : (⟨k + 1, hk⟩ : Fin Config.FRAME_WORDS) = ⟨k, Nat.lt_of_succ_lt hk⟩ + 1 :=
      Fin.ext (Fin.val_add_one_of_lt (i := ⟨k, Nat.lt_of_succ_lt hk⟩) (Nat.lt_of_succ_lt_succ hk)).symm
    rw [hnext]
    exact (ih (by omega)).trans (.cycle hs rfl (cycle_take hs hread hlen (show k ≠ 881 by omega)))

end Burst

/-! ### The ends of a burst -/

/-- A command in execution before its burst: what a burst uses is at its idle values (R25, log 5). -/
structure BurstIdle (b : State) : Prop where
  seq : b.seq = .exec
  burst : b.burst = false
  w : b.w = 0
  tmr : b.tmr = 0#13
  snkValid : b.snkValid = false
  snkAbort : b.snkAbort = false

/-- A failed burst ends, its abort pulse aside, as the command level says (R97). -/
theorem endBurst_fail {b : State} (h : BurstIdle b) (ws : List Sample) (cause : FailCause) (w : Fin Config.FRAME_WORDS)
    (n : BitVec 13) {c : CycleIn} (hg : c.go = true) :
    { endBurst c true (fail cause w.val { burstAt b ws w n with snkAbort := false }) with snkAbort := false } =
      fail cause w.val (sinkPut (burstWords 0 (ws.take w.val)) b) := by
  obtain ⟨-, hb, hw, ht, hv, ha⟩ := h
  cases cause <;> simp [endBurst, fail, respond, dropFrame, sinkPut, burstAt, hg, hb, hw, ht, hv, ha]

/-- A completed burst ends as the command level says (R94). -/
theorem endBurst_complete {b : State} (h : BurstIdle b) {ws : List Sample} {x : Sample} (hlen : ws.length = 882)
    (hx : ws[881]? = some x) (n : BitVec 13) {c : CycleIn} (hg : c.go = true) :
    { endBurst c false (respond codeOK (BitVec.ofNat 32 Config.FRAME_WORDS)
        (dropFrame (sinkPut [burstWord 881 x] { burstAt b ws 881 n with snkAbort := false }))) with snkAbort := false } =
      burstOutcome ws .complete b := by
  have hlog : burstWords 0 (ws.take 881) ++ [burstWord 881 x] = burstWords 0 ws := by
    rw [← burstWords_take_succ hx, List.take_of_length_le hlen.le]
  obtain ⟨-, hb, hw, ht, hv, ha⟩ := h
  simp [endBurst, respond, dropFrame, sinkPut, burstAt, burstOutcome, hg, hb, hw, ht, hv, ha, ← hlog]

/-- Every outcome of R95 is reached from the start of the burst. -/
theorem reaches_outcome {b : State} {ws : List Sample} {draw : BurstDraw} (hidle : BurstIdle b)
    (hread : ∀ i < 882, b.fb.readWord i = ws[i]?) (hlen : ws.length = 882)
    (hended : ∀ k ticks o, draw ≠ .unfinished k ticks o) :
    ∃ t, Reaches (burstAt b ws 0 0#13) t ∧ { t with snkAbort := false } = burstOutcome ws draw b := by
  have hs := hidle.seq
  have hword (k : Fin 882) : Reaches (burstAt b ws 0 0#13) (burstAt b ws k 0#13) := reaches_word hs hread hlen k.isLt
  cases draw with
  | complete =>
    obtain ⟨x, hx, hrd⟩ := exists_word hread hlen (881 : Fin 882)
    exact ⟨_, (hword 881).trans (.cycle (c := workCycle false true false) hs rfl
      (cycle_taken_last rfl hs rfl rfl rfl rfl hrd rfl)), endBurst_complete hidle hlen hx _ rfl⟩
  | timeout k =>
    exact ⟨_, (hword k).trans ((reaches_tick hs k le_rfl).trans (.cycle (c := workCycle true false false) hs rfl
      (cycle_timeout rfl hs rfl rfl rfl rfl))), endBurst_fail hidle ws .timeout k _ rfl⟩
  | sinkErr k =>
    exact ⟨_, (hword k).trans (.cycle (c := workCycle false false true) hs rfl
      (cycle_sinkErr rfl hs rfl rfl)), endBurst_fail hidle ws .sinkErr k _ rfl⟩
  | unfinished k ticks o => exact absurd rfl (hended k ticks o)

theorem decode_word_emit {c : CycleIn} (h : c.cmdOp = 0x4#4) : decode c.word = .ok .emit := by
  rw [CycleIn.word, h, decode_mk_emit]

/-- The state in which the cycle `c` accepts the command on the port (R56). -/
def accepted (c : CycleIn) (s : State) : State := accept c.word { s.pins with devReady := c.devReady } s

/-- The cycle that accepts an `EMIT` with a frame and the device ready starts its burst (R56, R96). -/
theorem cycle_startsBurst {s : State} {c : CycleIn} (hinv : Inv s) (hidle : s.seq = .idle) (hf : s.fv = true)
    (hrst : c.rst = false) (hval : c.cmdValid = true) (hop : c.cmdOp = 0x4#4) (hdev : c.devReady = true) :
    cycle c s = .next (burstStart (accepted c s) c.go) := by
  have hquiet : { s with snkAbort := false } = s := by rw [← hinv.abortIdle]
  rw [cycle_idle hrst hidle, if_pos hval, hquiet, acceptCycle_burst (decode_word_emit hop) (by simp [hf, hdev]),
    burstStart, accepted]

theorem accepted_burstIdle {s : State} (hinv : Inv s) (hidle : s.seq = .idle) (c : CycleIn) :
    BurstIdle (accepted c s) := by
  have hburst := inv_burst_false hinv (by simp [hidle])
  obtain ⟨hw, htmr, hvalid⟩ := hinv.burstIdle hburst
  exact ⟨rfl, hburst, hw, htmr, hvalid, rfl⟩

/-- What the command level gives for an accepted `EMIT` and a draw; the draw is a pin (R94, R95). -/
theorem runWord_emit_draw {s : State} {c : CycleIn} {ws : List Sample} (hop : c.cmdOp = 0x4#4) (hf : s.fv = true)
    (hws : s.fb.frame = some ws) (draw : BurstDraw) :
    runWord c.word (accept c.word ⟨true, draw, s.pins.rspReady⟩ s) =
      .next { burstOutcome ws draw (accepted c s) with pins := ⟨true, draw, s.pins.rspReady⟩ } := by
  rw [← burstOutcome_pins, runWord_ok (decode_word_emit hop)]
  exact exec_emit_burst hf rfl hws

/-- Settles O53: the cycle that accepts the `EMIT` starts its burst, and from there each outcome is reached. -/
theorem everyOutcomeHasARun : Obligations.EveryOutcomeHasARun := by
  intro s c draw hinv hidle hf hrst hval hop hdev hended
  obtain ⟨ws, hws, hlen, hread⟩ := frame_of_complete hinv.wf (hinv.frame hf)
  have hbidle := accepted_burstIdle hinv hidle c
  have hoffer := Reaches.cycle (s := burstStart (accepted c s) c.go) hbidle.seq rfl (cycle_firstOffer hbidle.seq ws c.go)
  obtain ⟨t, ht, hout⟩ := reaches_outcome hbidle hread hlen hended
  obtain ⟨cs, hcs, hrun⟩ := hoffer.trans ht
  refine ⟨cs, t, _, hcs, ?_, runWord_emit_draw hop hf hws draw, ?_⟩
  · rw [runToResponse_cons (by simp [hidle]) (cycle_startsBurst hinv hidle hf hrst hval hop hdev), hrun]
  · rw [← hout]

end Sys2Proof.Machine
end

section
/-! The access commands NOP, RDFB and CLRF (R110, R112, R113). -/

namespace Sys2Proof.Machine

/-! ### NOP -/

theorem exec_nop (s : State) : exec .nop s = .next (respond codeOK 0#32 s) := rfl

/-- Settles O8: whatever the operands, the word of opcode 0 is `NOP`, which only responds. -/
theorem nopAnswersOk : Obligations.NopAnswersOk := ⟨decode_mk_nop, exec_nop⟩

/-! ### RDFB -/

theorem frameIndex_of_lt {idx : Word} (h : idx.toNat < 882) : frameIndex idx = some ⟨idx.toNat, h⟩ := dif_pos h

/-- Settles O12: the index is checked first, then FV; a legal index selects the frame word of its own number. -/
theorem rdfbAnswersFrameWord : Obligations.RdfbAnswersFrameWord := by
  refine ⟨decode_mk_rdfb, fun s idx h => ?illegal, fun s idx h hf => ?noFrame, fun s idx v h hf hv => ?word⟩
  case illegal => exact exec_rdfb_illegal ((frameIndex_eq_none_iff idx).2 h) s
  case noFrame => exact exec_rdfb_noFrame (frameIndex_of_lt h) hf
  case word => exact exec_rdfb_word (frameIndex_of_lt h) hf hv

/-! ### CLRF -/

theorem exec_clrf (mask : Word) (s : State) :
    exec (.clrf mask) s = .next (respond codeOK (statusWord (clearFlags mask s)) (clearFlags mask s)) := rfl

/-- A flag and the negation of its mask bit is the flag, cleared where the bit is set (R113). -/
theorem clearFlags_eq_ite (mask : Word) (s : State) : clearFlags mask s = { s with
    tout := if mask.getLsbD 2 then false else s.tout
    snke := if mask.getLsbD 3 then false else s.snke
    perr := if mask.getLsbD 4 then false else s.perr } := by
  have hclear (m f : Bool) : (f && !m) = if m then false else f := by cases m <;> simp
  simp only [clearFlags, hclear]

/-- Settles O13: the state after clearing is the one whose STATUS is answered. -/
theorem clrfClearsSelectedFlags : Obligations.ClrfClearsSelectedFlags :=
  ⟨decode_mk_clrf, fun s mask => ⟨clearFlags mask s, clearFlags_eq_ite mask s, exec_clrf mask s⟩⟩

end Sys2Proof.Machine
end

section
/-! The machine has no traps (R123, R131, R137). -/

namespace Sys2Proof.Machine

/-- A word that decodes runs its command, and a reserved opcode is refused (R60, R123). -/
theorem runWord_exists_next {s : State} (hw : s.fb.wf) (hc : s.fv = true → completeFrame s.fb) (word : CmdWord) :
    ∃ t, runWord word s = .next t := by
  cases hd : decode word with
  | ok i => exact runWord_ok hd s ▸ exec_next hw hc i
  | error e => exact ⟨_, runWord_error hd s⟩

theorem step_inputs_nil {s : State} (hi : s.inputs = []) : step s = .next s := by
  rw [step, commandStep, hi]

theorem step_inputs_rst {s : State} {rest : List Input} (hi : s.inputs = .rst :: rest) :
    step s = .next (applyReset { s with inputs := rest }) := by
  rw [step, commandStep, hi]

/-- Settles O47: only an accepted command could stop, and it finds a complete frame while FV = 1. -/
theorem stepNeverStops : Obligations.StepNeverStops := by
  intro s hinv
  cases hi : s.inputs with
  | nil => exact ⟨s, step_inputs_nil hi⟩
  | cons input rest =>
    cases input with
    | rst => exact ⟨_, step_inputs_rst hi⟩
    | command word pins =>
      by_cases hs : s.seq = .idle
      · obtain ⟨t, ht⟩ := runWord_exists_next (s := accept word pins { s with inputs := rest }) hinv.wf hinv.frame word
        refine ⟨settle t, ?_⟩
        rw [step_command_idle hi hs, ht, settleResult]
      · exact ⟨s, step_command_busy hi hs⟩

end Sys2Proof.Machine
end

section
/-! A burst that has not ended (R148), and reset (R140 to R142). -/

namespace Sys2Proof.Machine

/-! ### The unfinished burst at the command level -/

/-- A complete frame is a list of words whose first k are the ones FB reads below k (R26, R95). -/
theorem frame_take {m : Memory} (hw : m.wf) (hc : completeFrame m) (k : Fin 882) :
    ∃ ws, m.frame = some ws ∧ (ws.take k).length = k ∧ ∀ i < k.val, m.readWord i = (ws.take k)[i]? := by
  obtain ⟨ws, hws, hlen, hread⟩ := frame_of_complete hw hc
  refine ⟨ws, hws, List.length_take_of_le (k.isLt.le.trans hlen.ge), fun i hi => ?_⟩
  rw [List.getElem?_take_of_lt hi, hread i (hi.trans k.isLt)]

/-- Settles O23: the draw leaves the block in its burst with the first k words of the frame sent. -/
theorem emitUnfinishedWaits : Obligations.EmitUnfinishedWaits := by
  intro s k ticks offering hf hw hc hd hdraw
  obtain ⟨ws, hws, hlen, hread⟩ := frame_take hw hc k
  refine ⟨ws.take k, hlen, hread, ?_⟩
  rw [exec_emit_burst hf hd hws, hdraw, ← burstWords_zero]
  rfl

/-! ### The unfinished burst at the signal level -/

/-- Without a pulse and without a transfer a burst that goes on can only make its offer (R46, R96). -/
theorem burstGoesOn_stopped {c : CycleIn} (s : State) (hce : c.fsCe = false) (hr : c.snkReady = false) :
    burstGoesOn c s = .next { s with snkValid := s.snkValid || c.go } := by
  simp [burstGoesOn, hce, hr]

/-- A cycle of a burst with `fs_ce` stopped and an idle sink meets none of the cases (1) to (3) of R96. -/
theorem cycle_stopped {c : CycleIn} {s : State} (hc : c.rst = false) (hs : s.seq = .exec) (hb : s.burst = true)
    (hce : c.fsCe = false) (hr : c.snkReady = false) (he : c.snkErr = false) :
    cycle c s = .next { s with snkAbort := false, snkValid := s.snkValid || c.go } := by
  rw [cycle_goesOn hc hs hb he (by simp [hr]) (by simp [hce]), burstGoesOn_stopped _ hce hr]

/-- Settles O55, by induction on the cycles: each moves the offer and the abort pulse alone. -/
theorem stoppedClockHangsBurst : Obligations.StoppedClockHangsBurst := by
  intro s cs hs hb hcs
  induction cs generalizing s with
  | nil => exact ⟨s, rfl, hb, hs, rfl, rfl, rfl, rfl⟩
  | cons c cs ih =>
    obtain ⟨⟨hc, hce, hr, he⟩, hrest⟩ := List.forall_mem_cons.1 hcs
    rw [runToResponse_cons (by simp [hs]) (cycle_stopped hc hs hb hce hr he)]
    exact ih { s with snkAbort := false, snkValid := s.snkValid || c.go } hs hb hrest

/-! ### Reset -/

/-- Settles O42: each value is the one R36 writes, and the outputs read them. -/
theorem resetLoadsValues : Obligations.ResetLoadsValues :=
  ⟨rfl, rfl, rfl, rfl, rfl, rfl, rfl, rfl, rfl, rfl, rfl, rfl, rfl⟩

/-- Settles O44: at both levels `rst` applies the reset, whatever the block was doing. -/
theorem resetFromAnyState : Obligations.ResetFromAnyState :=
  fun s => ⟨fun _ hi => step_inputs_rst hi, fun _ hc => cycle_rst hc s⟩

end Sys2Proof.Machine
end
